-- ==== Sys2Proof/Word.lean ====
section
/-! DEFINITION. The 32-bit word and its two readings (00_scope.md R6, R9). -/

namespace Sys2Proof

/-- A register cell, an instruction word, a value of `pc`: `XLEN = ILEN = PCLEN = 32` (R6). -/
abbrev Word := BitVec 32

/-- The index of a general register, 0 to 31, every one legal (10_state.md R20). -/
abbrev RegIdx := BitVec 5

/-- `u32(v)`: the unsigned reading (R9). -/
abbrev u32 (v : Word) : Int := v.toNat

/-- `s32(v)`: the signed, two's complement reading (R9). -/
abbrev s32 (v : Word) : Int := v.toInt

/-- `trunc32(n) = n mod 2^32` (R9). -/
def trunc32 (n : Int) : Word := BitVec.ofInt 32 n

end Sys2Proof
end

