-- ==== Sys2Proof/Config.lean ====
section
/-! DEFINITION. The parameters the spec leaves open (00_scope.md R7): the opcode assignment `Enc` and the
configuration record `Config`. Their default values stand in Decode.lean and Machine/Defaults.lean. -/

namespace Sys2Proof

/-- The opcode assignment `ENC` (R7, R93): the function code of each REGISTER and PSEUDO mnemonic, the
primary field of each JUMP and IMMEDIATE mnemonic, and for `bltz` and `bgez` the `rt` sub-key, `none`
where the primary field alone selects the mnemonic (R86, 90_conflicts.md C14). That an assignment carries
its own sub-key values is a DESIGN CHOICE (log entry 17). -/
structure Enc where
  -- REGISTER: function codes
  (sll srl sra sllv srlv srav jr jalr brk mfhi : BitVec 6)
  (mthi mflo mtlo mult multu div divu add addu sub : BitVec 6)
  (subu and or xor nor slt sltu : BitVec 6)
  -- PSEUDO: function codes
  (syscall mul : BitVec 6)
  -- JUMP: primary fields
  (j jal : BitVec 6)
  -- IMMEDIATE: primary fields
  (bltz bgez beq bne blez bgtz addi addiu slti sltiu : BitVec 6)
  (andi ori xori lui lb lh lw sb sh sw : BitVec 6)
  -- the sub-keys
  (bltzRt bgezRt : Option (BitVec 5))
deriving DecidableEq, Repr

/-- The configuration record (R7): every parameter the model takes as an argument. -/
structure Config where
  /-- IMEM_CAPACITY: the number of cells of the instruction buffer. -/
  imemCapacity : Nat
  /-- HALT_PC: the halt sentinel. -/
  haltPc : Word
  /-- STEP_LIMIT: the bound of the host's run function (R246). -/
  stepLimit : Option Nat
  /-- ENC: the opcode assignment. -/
  enc : Enc
  /-- SYSCALL_NUM_REG. -/
  syscallNumReg : RegIdx
  /-- SYSCALL_ARG_REG. -/
  syscallArgReg : RegIdx
deriving DecidableEq, Repr

end Sys2Proof
end

