-- ==== Sys2Proof/Syntax.lean ====
section
/-! DEFINITION. The instructions as syntax: the four families and the 51 mnemonics (30_encoding.md R80,
R93), and `Instr`, one constructor per row of the opcode table. -/

namespace Sys2Proof

/-- The four families of the Opcode Classifier (R80). -/
inductive Family
  | pseudo | register | jump | immediate
deriving DecidableEq, Repr

/-- The 51 mnemonics in scope (R1), in the order of the opcode table (R93). `brk` is `break`. -/
inductive Mnemonic
  | sll | srl | sra | sllv | srlv | srav | jr | jalr | syscall
  | brk | mfhi | mthi | mflo | mtlo | mult | multu | div | divu
  | mul | add | addu | sub | subu | and | or | xor | nor
  | slt | sltu | bltz | bgez | j | jal | beq | bne | blez
  | bgtz | addi | addiu | slti | sltiu | andi | ori | xori | lui
  | lb | lh | lw | sb | sh | sw
deriving DecidableEq, Repr

/-- An instruction: its mnemonic and the fields its handler is given (R93; the operands stand in the
order of the row's template). A field the row does not name is ignored (R89) and is not kept. The
`imm16` of the six register copies is a field of the row that the handler ignores (R165). `addr` is the
whole 26-bit field, legal only up to 31 (R77): see `Instr.wellFormed`. -/
inductive Instr
  /-- `sll` (R141). -/
  | sll (rd rt : RegIdx) (shamt : BitVec 5)
  /-- `srl` (R143). -/
  | srl (rd rs : RegIdx) (shamt : BitVec 5)
  /-- `sra` (R145). -/
  | sra (rd rt : RegIdx) (shamt : BitVec 5)
  /-- `sllv` (R142). -/
  | sllv (rd rt rs : RegIdx)
  /-- `srlv` (R144). -/
  | srlv (rd rt rs : RegIdx)
  /-- `srav` (R146). -/
  | srav (rd rt rs : RegIdx)
  /-- `jr` (R184). -/
  | jr (rs : RegIdx)
  /-- `jalr` (R185). -/
  | jalr (rd rs : RegIdx)
  /-- `syscall` (R197). -/
  | syscall
  /-- `break` (R196). -/
  | brk (rd : RegIdx)
  /-- `mfhi` (R155). -/
  | mfhi (rd : RegIdx)
  /-- `mthi` (R157). -/
  | mthi (rd : RegIdx)
  /-- `mflo` (R156). -/
  | mflo (rd : RegIdx)
  /-- `mtlo` (R158). -/
  | mtlo (rd : RegIdx)
  /-- `mult` (R151). -/
  | mult (rs rt : RegIdx)
  /-- `multu` (R152). -/
  | multu (rs rt : RegIdx)
  /-- `div` (R153). -/
  | div (rs rt : RegIdx)
  /-- `divu` (R154). -/
  | divu (rs rt : RegIdx)
  /-- `mul` (R159). -/
  | mul (rd rs rt : RegIdx)
  /-- `add` (R111). -/
  | add (rd rs rt : RegIdx)
  /-- `addu` (R112). -/
  | addu (rd rs rt : RegIdx)
  /-- `sub` (R122). -/
  | sub (rd rs rt : RegIdx)
  /-- `subu` (R123). -/
  | subu (rd rs rt : RegIdx)
  /-- `and` (R115). -/
  | and (rd rs rt : RegIdx)
  /-- `or` (R117). -/
  | or (rd rs rt : RegIdx)
  /-- `xor` (R120). -/
  | xor (rd rs rt : RegIdx)
  /-- `nor` (R119). -/
  | nor (rd rs rt : RegIdx)
  /-- `slt` (R124). -/
  | slt (rd rs rt : RegIdx)
  /-- `sltu` (R125). -/
  | sltu (rd rs rt : RegIdx)
  /-- `bltz` (R181). -/
  | bltz (rs : RegIdx) (imm16 : BitVec 16)
  /-- `bgez` (R178). -/
  | bgez (rs : RegIdx) (imm16 : BitVec 16)
  /-- `j` (R182). -/
  | j (addr : BitVec 26)
  /-- `jal` (R183). -/
  | jal (addr : BitVec 26)
  /-- `beq` (R176). -/
  | beq (rs rt : RegIdx) (imm16 : BitVec 16)
  /-- `bne` (R177). -/
  | bne (rs rt : RegIdx) (imm16 : BitVec 16)
  /-- `blez` (R180). -/
  | blez (rs : RegIdx) (imm16 : BitVec 16)
  /-- `bgtz` (R179). -/
  | bgtz (rs : RegIdx) (imm16 : BitVec 16)
  /-- `addi` (R113). -/
  | addi (rt rs : RegIdx) (imm16 : BitVec 16)
  /-- `addiu` (R114). -/
  | addiu (rt rs : RegIdx) (imm16 : BitVec 16)
  /-- `slti` (R126). -/
  | slti (rt rs : RegIdx) (imm16 : BitVec 16)
  /-- `sltiu` (R127). -/
  | sltiu (rt rs : RegIdx) (imm16 : BitVec 16)
  /-- `andi` (R116). -/
  | andi (rt rs : RegIdx) (imm16 : BitVec 16)
  /-- `ori` (R118). -/
  | ori (rt rs : RegIdx) (imm16 : BitVec 16)
  /-- `xori` (R121). -/
  | xori (rt rs : RegIdx) (imm16 : BitVec 16)
  /-- `lui` (R128). -/
  | lui (rt : RegIdx) (imm16 : BitVec 16)
  /-- `lb` (R166). -/
  | lb (rt : RegIdx) (imm16 : BitVec 16) (rs : RegIdx)
  /-- `lh` (R167). -/
  | lh (rt : RegIdx) (imm16 : BitVec 16) (rs : RegIdx)
  /-- `lw` (R168). -/
  | lw (rt : RegIdx) (imm16 : BitVec 16) (rs : RegIdx)
  /-- `sb` (R169). -/
  | sb (rt : RegIdx) (imm16 : BitVec 16) (rs : RegIdx)
  /-- `sh` (R170). -/
  | sh (rt : RegIdx) (imm16 : BitVec 16) (rs : RegIdx)
  /-- `sw` (R171). -/
  | sw (rt : RegIdx) (imm16 : BitVec 16) (rs : RegIdx)
deriving DecidableEq, Repr

end Sys2Proof
end

