-- ==== Sys2Proof/WellFormed.lean ====
section
/-! DEFINITION. Which terms of `Instr` are instructions of the core: the one check the types do not make,
the range of the `addr` field (30_encoding.md R77). -/

namespace Sys2Proof

/-- `addr` is "legal only when `addr <= 31`" (R77). -/
def addrLegal (addr : BitVec 26) : Bool := decide (addr.toNat ≤ 31)

/-- A well-formed instruction. Every register field, shift amount and immediate is legal (R20, R77). -/
def Instr.wellFormed : Instr → Bool
  | .j addr => addrLegal addr
  | .jal addr => addrLegal addr
  | .sll _ _ _ | .srl _ _ _ | .sra _ _ _ | .sllv _ _ _ | .srlv _ _ _ | .srav _ _ _
  | .jr _ | .jalr _ _ | .syscall | .brk _ | .mfhi _ | .mthi _ | .mflo _ | .mtlo _
  | .mult _ _ | .multu _ _ | .div _ _ | .divu _ _ | .mul _ _ _
  | .add _ _ _ | .addu _ _ _ | .sub _ _ _ | .subu _ _ _ | .and _ _ _ | .or _ _ _ | .xor _ _ _
  | .nor _ _ _ | .slt _ _ _ | .sltu _ _ _ | .bltz _ _ | .bgez _ _ | .beq _ _ _ | .bne _ _ _
  | .blez _ _ | .bgtz _ _ | .addi _ _ _ | .addiu _ _ _ | .slti _ _ _ | .sltiu _ _ _
  | .andi _ _ _ | .ori _ _ _ | .xori _ _ _ | .lui _ _ | .lb _ _ _ | .lh _ _ _ | .lw _ _ _
  | .sb _ _ _ | .sh _ _ _ | .sw _ _ _ => true

end Sys2Proof
end

