-- ==== Sys2Proof/Decode.lean ====
section
/-! DEFINITION. The Instruction Format Decoder, the Opcode Classifier, the dispatch table and the encoder
(30_encoding.md): total functions of the word and of the opcode assignment `Enc`, and `Enc.default`, the
assignment `ENC_DEFAULT` of R93. -/

namespace Sys2Proof

/-- The family each mnemonic belongs to (R80). -/
def Mnemonic.family : Mnemonic → Family
  | .syscall | .mul => .pseudo
  | .j | .jal => .jump
  | .bltz | .bgez | .beq | .bne | .blez | .bgtz | .addi | .addiu | .slti | .sltiu
  | .andi | .ori | .xori | .lui | .lb | .lh | .lw | .sb | .sh | .sw => .immediate
  | .sll | .srl | .sra | .sllv | .srlv | .srav | .jr | .jalr | .brk
  | .mfhi | .mthi | .mflo | .mtlo | .mult | .multu | .div | .divu | .add
  | .addu | .sub | .subu | .and | .or | .xor | .nor | .slt | .sltu => .register

/-- The members of each family (R80). -/
def Mnemonic.ofFamily : Family → List Mnemonic
  | .pseudo => [.syscall, .mul]
  | .register => [.sll, .srl, .sra, .sllv, .srlv, .srav, .jr, .jalr, .brk, .mfhi,
      .mthi, .mflo, .mtlo, .mult, .multu, .div, .divu, .add, .addu, .sub,
      .subu, .and, .or, .xor, .nor, .slt, .sltu]
  | .jump => [.j, .jal]
  | .immediate => [.bltz, .bgez, .beq, .bne, .blez, .bgtz, .addi, .addiu, .slti, .sltiu,
      .andi, .ori, .xori, .lui, .lb, .lh, .lw, .sb, .sh, .sw]

/-- Every mnemonic once, the PSEUDO family first: the order in which dispatch tries them (R82). -/
def Mnemonic.all : List Mnemonic :=
  ofFamily .pseudo ++ ofFamily .register ++ ofFamily .jump ++ ofFamily .immediate

/-- The mnemonic of an instruction. -/
def Instr.mnemonic : Instr → Mnemonic
  | .sll _ _ _ => .sll
  | .srl _ _ _ => .srl
  | .sra _ _ _ => .sra
  | .sllv _ _ _ => .sllv
  | .srlv _ _ _ => .srlv
  | .srav _ _ _ => .srav
  | .jr _ => .jr
  | .jalr _ _ => .jalr
  | .syscall => .syscall
  | .brk _ => .brk
  | .mfhi _ => .mfhi
  | .mthi _ => .mthi
  | .mflo _ => .mflo
  | .mtlo _ => .mtlo
  | .mult _ _ => .mult
  | .multu _ _ => .multu
  | .div _ _ => .div
  | .divu _ _ => .divu
  | .mul _ _ _ => .mul
  | .add _ _ _ => .add
  | .addu _ _ _ => .addu
  | .sub _ _ _ => .sub
  | .subu _ _ _ => .subu
  | .and _ _ _ => .and
  | .or _ _ _ => .or
  | .xor _ _ _ => .xor
  | .nor _ _ _ => .nor
  | .slt _ _ _ => .slt
  | .sltu _ _ _ => .sltu
  | .bltz _ _ => .bltz
  | .bgez _ _ => .bgez
  | .j _ => .j
  | .jal _ => .jal
  | .beq _ _ _ => .beq
  | .bne _ _ _ => .bne
  | .blez _ _ => .blez
  | .bgtz _ _ => .bgtz
  | .addi _ _ _ => .addi
  | .addiu _ _ _ => .addiu
  | .slti _ _ _ => .slti
  | .sltiu _ _ _ => .sltiu
  | .andi _ _ _ => .andi
  | .ori _ _ _ => .ori
  | .xori _ _ _ => .xori
  | .lui _ _ => .lui
  | .lb _ _ _ => .lb
  | .lh _ _ _ => .lh
  | .lw _ _ _ => .lw
  | .sb _ _ _ => .sb
  | .sh _ _ _ => .sh
  | .sw _ _ _ => .sw

/-! ## Layouts and immediates -/

/-- `sext_32` on a 16-bit pattern (00_scope.md R10). -/
def sext32 (v : BitVec 16) : Word := v.signExtend 32

/-- `zext_32` on a 16-bit pattern (R10). -/
def zext32 (v : BitVec 16) : Word := v.setWidth 32

/-- The fields of the register-operation layout, 6/5/5/5/5/6 (R71). -/
structure RFields where
  op : BitVec 6
  rs : RegIdx
  rt : RegIdx
  rd : RegIdx
  shamt : BitVec 5
  funct : BitVec 6
deriving DecidableEq, Repr

/-- The fields of the immediate-operation layout, 6/5/5/16, with the sign-extended immediate (R72). -/
structure IFields where
  op : BitVec 6
  rs : RegIdx
  rt : RegIdx
  imm : Word
deriving DecidableEq, Repr

/-- The fields of the jump layout, 6/26 (R73). -/
structure JFields where
  op : BitVec 6
  addr : BitVec 26
deriving DecidableEq, Repr

/-- `w[31:26]`, the primary field of every layout (R79). -/
def opField (w : Word) : BitVec 6 := w.extractLsb' 26 6
/-- `w[25:21]` (R71, R72). -/
def rsField (w : Word) : RegIdx := w.extractLsb' 21 5
/-- `w[20:16]` (R71, R72). -/
def rtField (w : Word) : RegIdx := w.extractLsb' 16 5
/-- `w[15:11]` (R71). -/
def rdField (w : Word) : RegIdx := w.extractLsb' 11 5
/-- `w[10:6]` (R71). -/
def shamtField (w : Word) : BitVec 5 := w.extractLsb' 6 5
/-- `w[5:0]` (R71). -/
def functField (w : Word) : BitVec 6 := w.extractLsb' 0 6
/-- `w[15:0]` (R72, R75). -/
def imm16Field (w : Word) : BitVec 16 := w.extractLsb' 0 16
/-- `w[25:0]` (R73). -/
def addrField (w : Word) : BitVec 26 := w.extractLsb' 0 26

/-- The register-operation view of a word (R71). -/
def decodeR (w : Word) : RFields :=
  ⟨opField w, rsField w, rtField w, rdField w, shamtField w, functField w⟩

/-- The immediate-operation view of a word (R72). -/
def decodeI (w : Word) : IFields := ⟨opField w, rsField w, rtField w, sext32 (imm16Field w)⟩

/-- The jump view of a word (R73). -/
def decodeJ (w : Word) : JFields := ⟨opField w, addrField w⟩

/-- All nine outputs of the Instruction Format Decoder (10_state.md R41, R74). -/
structure DecoderOut where
  op : BitVec 6
  rs : RegIdx
  rt : RegIdx
  rd : RegIdx
  shamt : BitVec 5
  funct : BitVec 6
  imm16 : BitVec 16
  imm : Word
  addr : BitVec 26
deriving DecidableEq, Repr

/-- The Instruction Format Decoder: "bit extraction is total over the 32-bit domain" (R74). -/
def decoderOut (w : Word) : DecoderOut :=
  { op := opField w, rs := rsField w, rt := rtField w, rd := rdField w, shamt := shamtField w,
    funct := functField w, imm16 := imm16Field w, imm := sext32 (imm16Field w), addr := addrField w }

/-- `encodeR` (R78). -/
def encodeR (op : BitVec 6) (rs rt rd : RegIdx) (shamt : BitVec 5) (funct : BitVec 6) : Word :=
  op ++ rs ++ rt ++ rd ++ shamt ++ funct

/-- `encodeI` (R78). -/
def encodeI (op : BitVec 6) (rs rt : RegIdx) (imm16 : BitVec 16) : Word :=
  op ++ rs ++ rt ++ imm16

/-- `encodeJ` (R78). -/
def encodeJ (op : BitVec 6) (addr : BitVec 26) : Word :=
  op ++ addr

/-! ## The opcode assignment -/

/-- The function code of a REGISTER or PSEUDO mnemonic; 0, and of no meaning, for the others. -/
def Enc.funct (e : Enc) : Mnemonic → BitVec 6
  | .sll => e.sll | .srl => e.srl | .sra => e.sra | .sllv => e.sllv
  | .srlv => e.srlv | .srav => e.srav | .jr => e.jr | .jalr => e.jalr
  | .syscall => e.syscall | .brk => e.brk | .mfhi => e.mfhi | .mthi => e.mthi
  | .mflo => e.mflo | .mtlo => e.mtlo | .mult => e.mult | .multu => e.multu
  | .div => e.div | .divu => e.divu | .mul => e.mul | .add => e.add
  | .addu => e.addu | .sub => e.sub | .subu => e.subu | .and => e.and
  | .or => e.or | .xor => e.xor | .nor => e.nor | .slt => e.slt
  | .sltu => e.sltu
  | .bltz | .bgez | .j | .jal | .beq | .bne | .blez | .bgtz | .addi | .addiu | .slti
  | .sltiu | .andi | .ori | .xori | .lui | .lb | .lh | .lw | .sb | .sh | .sw => 0

/-- The primary field of a mnemonic, zero for REGISTER and PSEUDO (R94 (a)). -/
def Enc.op (e : Enc) : Mnemonic → BitVec 6
  | .bltz => e.bltz | .bgez => e.bgez | .j => e.j | .jal => e.jal
  | .beq => e.beq | .bne => e.bne | .blez => e.blez | .bgtz => e.bgtz
  | .addi => e.addi | .addiu => e.addiu | .slti => e.slti | .sltiu => e.sltiu
  | .andi => e.andi | .ori => e.ori | .xori => e.xori | .lui => e.lui
  | .lb => e.lb | .lh => e.lh | .lw => e.lw | .sb => e.sb
  | .sh => e.sh | .sw => e.sw
  | .sll | .srl | .sra | .sllv | .srlv | .srav | .jr | .jalr | .syscall | .brk
  | .mfhi | .mthi | .mflo | .mtlo | .mult | .multu | .div | .divu | .mul | .add
  | .addu | .sub | .subu | .and | .or | .xor | .nor | .slt | .sltu => 0

/-- The `rt` sub-key: only `bltz` and `bgez` may have one; "for every other IMMEDIATE mnemonic the key is
the primary field alone" (R86). DESIGN CHOICE (log entry 17): its value is the assignment's own (R94 (d)),
where R81 and R86 write 0 and 1, the values in `ENC_DEFAULT`. -/
def Enc.rtKey (e : Enc) (m : Mnemonic) : Option (BitVec 5) :=
  if m = .bltz then e.bltzRt else if m = .bgez then e.bgezRt else none

/-- `PSEUDO_FUNCTS` (R85). -/
def Enc.pseudoFuncts (e : Enc) : List (BitVec 6) := (Mnemonic.ofFamily .pseudo).map e.funct
/-- `REGISTER_FUNCTS` (R85). -/
def Enc.registerFuncts (e : Enc) : List (BitVec 6) := (Mnemonic.ofFamily .register).map e.funct
/-- `JUMP_OPS` (R85). -/
def Enc.jumpOps (e : Enc) : List (BitVec 6) := (Mnemonic.ofFamily .jump).map e.op
/-- `IMMEDIATE_OPS` (R85), a shared primary field listed once for each mnemonic that has it. -/
def Enc.immediateOps (e : Enc) : List (BitVec 6) := (Mnemonic.ofFamily .immediate).map e.op

/-- The sub-key of a row admits an `rt` field: any, where the row has no sub-key (R86). -/
def rtAdmitted : Option (BitVec 5) → BitVec 5 → Bool
  | none, _ => true
  | some k, rt => k == rt

/-- Two sub-keys that no `rt` field satisfies both. -/
def rtKeysApart : Option (BitVec 5) → Option (BitVec 5) → Bool
  | some a, some b => a != b
  | _, _ => false

/-- Well-formedness of an opcode assignment, R94 (b) to (e); (a) holds by `Enc.op`'s definition and by
the width of a function code. DEDUCED (log entry 8): (d) is read so that "no two rows match the same
word" (R88): two IMMEDIATE rows with one primary field have two different sub-keys. -/
def Enc.wf (e : Enc) : Bool :=
  -- (b)
  (e.jumpOps ++ e.immediateOps).all (· != 0)
  -- (c)
  && decide e.jumpOps.Nodup && e.jumpOps.all (fun p => !e.immediateOps.contains p)
  -- (d)
  && decide ((Mnemonic.ofFamily .immediate).Pairwise fun m m' =>
      (e.op m != e.op m' || rtKeysApart (e.rtKey m) (e.rtKey m')) = true)
  -- (e)
  && decide e.registerFuncts.Nodup && decide e.pseudoFuncts.Nodup

/-- No PSEUDO function code shadows a REGISTER one, so that all 51 mnemonics are reachable (R82, R94). -/
def Enc.functsDisjoint (e : Enc) : Bool :=
  e.pseudoFuncts.all fun f => !e.registerFuncts.contains f

/-- `ENC_DEFAULT` (R93). -/
def Enc.default : Enc where
  sll := 0x00; srl := 0x02; sra := 0x03; sllv := 0x04; srlv := 0x06
  srav := 0x07; jr := 0x08; jalr := 0x09; syscall := 0x0C; brk := 0x0D
  mfhi := 0x10; mthi := 0x11; mflo := 0x12; mtlo := 0x13; mult := 0x18
  multu := 0x19; div := 0x1A; divu := 0x1B; mul := 0x1C; add := 0x20
  addu := 0x21; sub := 0x22; subu := 0x23; and := 0x24; or := 0x25
  xor := 0x26; nor := 0x27; slt := 0x2A; sltu := 0x2B
  bltz := 0x01; bgez := 0x01; j := 0x02; jal := 0x03; beq := 0x04
  bne := 0x05; blez := 0x06; bgtz := 0x07; addi := 0x08; addiu := 0x09
  slti := 0x0A; sltiu := 0x0B; andi := 0x0C; ori := 0x0D; xori := 0x0E
  lui := 0x0F; lb := 0x20; lh := 0x21; lw := 0x23; sb := 0x28
  sh := 0x29; sw := 0x2B
  bltzRt := some 0x00; bgezRt := some 0x01

/-! ## Classifier and dispatch -/

/-- What the Opcode Classifier answers: the family tag, if any, and whether the word is valid (R42, R81). -/
structure Classification where
  family : Option Family
  valid : Bool
deriving DecidableEq, Repr

/-- The Opcode Classifier, R81's steps in order: PSEUDO before REGISTER (R82), strict tables (R83). DESIGN
CHOICE (log entry 17): step 4 tests `rt` against the assignment's own sub-keys, where R81 writes {0, 1}; under
`ENC_DEFAULT` the two are the same. -/
def classify (e : Enc) (w : Word) : Classification :=
  if opField w = 0 ∧ functField w ∈ e.pseudoFuncts then ⟨some .pseudo, true⟩
  else if opField w = 0 then ⟨some .register, decide (functField w ∈ e.registerFuncts)⟩
  else if opField w ∈ e.jumpOps then ⟨some .jump, decide (w.extractLsb' 5 21 = 0)⟩
  else if opField w ∈ e.immediateOps then
    ⟨some .immediate, (Mnemonic.ofFamily .immediate).any fun m =>
      e.op m == opField w && rtAdmitted (e.rtKey m) (rtField w)⟩
  else ⟨none, false⟩

/-- The mask of a row (R88). -/
def Enc.mask (e : Enc) (m : Mnemonic) : Word :=
  match m.family with
  | .register | .pseudo => 0xFC00003F
  | .jump => 0xFFFFFFE0
  | .immediate => if (e.rtKey m).isSome then 0xFC1F0000 else 0xFC000000

/-- The match word of a row (R88, R93). -/
def Enc.pattern (e : Enc) (m : Mnemonic) : Word :=
  match m.family with
  | .register | .pseudo => encodeR 0 0 0 0 0 (e.funct m)
  | .jump => encodeJ (e.op m) 0
  | .immediate => encodeI (e.op m) 0 ((e.rtKey m).getD 0) 0

/-- A word matches a row: `w & mask = match` (R88). -/
def Enc.rowMatches (e : Enc) (w : Word) (m : Mnemonic) : Bool := w &&& e.mask m == e.pattern m

/-- The dispatch table: the row the word matches, PSEUDO rows first (R82, R87, R88). -/
def dispatch (e : Enc) (w : Word) : Option Mnemonic := Mnemonic.all.find? (e.rowMatches w)

/-- Why a word is malformed: the four classes of R97, in its order. The core records only the word and
its index (60_exceptions.md R207). -/
inductive Malformed
  /-- Primary field zero and a function code of no row. -/
  | unmappedFunct (funct : BitVec 6)
  /-- A primary field of no row. -/
  | unmappedOp (op : BitVec 6)
  /-- A shared primary field with an `rt` that is no sub-key. -/
  | unmappedRt (rt : BitVec 5)
  /-- A jump whose `addr` field exceeds 31. -/
  | addrTooLarge (addr : BitVec 26)
deriving DecidableEq, Repr

/-- The name of a malformed word's class (R97). -/
def malformedReason (e : Enc) (w : Word) : Malformed :=
  if opField w = 0 then .unmappedFunct (functField w)
  else if opField w ∈ e.jumpOps then .addrTooLarge (addrField w)
  else if opField w ∈ e.immediateOps then .unmappedRt (rtField w)
  else .unmappedOp (opField w)

/-- The instruction of a row, its operands taken from the word's fields (R90, R93). -/
def assemble (w : Word) : Mnemonic → Instr
  | .sll => .sll (rdField w) (rtField w) (shamtField w)
  | .srl => .srl (rdField w) (rsField w) (shamtField w)
  | .sra => .sra (rdField w) (rtField w) (shamtField w)
  | .sllv => .sllv (rdField w) (rtField w) (rsField w)
  | .srlv => .srlv (rdField w) (rtField w) (rsField w)
  | .srav => .srav (rdField w) (rtField w) (rsField w)
  | .jr => .jr (rsField w)
  | .jalr => .jalr (rdField w) (rsField w)
  | .syscall => .syscall
  | .brk => .brk (rdField w)
  | .mfhi => .mfhi (rdField w)
  | .mthi => .mthi (rdField w)
  | .mflo => .mflo (rdField w)
  | .mtlo => .mtlo (rdField w)
  | .mult => .mult (rsField w) (rtField w)
  | .multu => .multu (rsField w) (rtField w)
  | .div => .div (rsField w) (rtField w)
  | .divu => .divu (rsField w) (rtField w)
  | .mul => .mul (rdField w) (rsField w) (rtField w)
  | .add => .add (rdField w) (rsField w) (rtField w)
  | .addu => .addu (rdField w) (rsField w) (rtField w)
  | .sub => .sub (rdField w) (rsField w) (rtField w)
  | .subu => .subu (rdField w) (rsField w) (rtField w)
  | .and => .and (rdField w) (rsField w) (rtField w)
  | .or => .or (rdField w) (rsField w) (rtField w)
  | .xor => .xor (rdField w) (rsField w) (rtField w)
  | .nor => .nor (rdField w) (rsField w) (rtField w)
  | .slt => .slt (rdField w) (rsField w) (rtField w)
  | .sltu => .sltu (rdField w) (rsField w) (rtField w)
  | .bltz => .bltz (rsField w) (imm16Field w)
  | .bgez => .bgez (rsField w) (imm16Field w)
  | .j => .j (addrField w)
  | .jal => .jal (addrField w)
  | .beq => .beq (rsField w) (rtField w) (imm16Field w)
  | .bne => .bne (rsField w) (rtField w) (imm16Field w)
  | .blez => .blez (rsField w) (imm16Field w)
  | .bgtz => .bgtz (rsField w) (imm16Field w)
  | .addi => .addi (rtField w) (rsField w) (imm16Field w)
  | .addiu => .addiu (rtField w) (rsField w) (imm16Field w)
  | .slti => .slti (rtField w) (rsField w) (imm16Field w)
  | .sltiu => .sltiu (rtField w) (rsField w) (imm16Field w)
  | .andi => .andi (rtField w) (rsField w) (imm16Field w)
  | .ori => .ori (rtField w) (rsField w) (imm16Field w)
  | .xori => .xori (rtField w) (rsField w) (imm16Field w)
  | .lui => .lui (rtField w) (imm16Field w)
  | .lb => .lb (rtField w) (imm16Field w) (rsField w)
  | .lh => .lh (rtField w) (imm16Field w) (rsField w)
  | .lw => .lw (rtField w) (imm16Field w) (rsField w)
  | .sb => .sb (rtField w) (imm16Field w) (rsField w)
  | .sh => .sh (rtField w) (imm16Field w) (rsField w)
  | .sw => .sw (rtField w) (imm16Field w) (rsField w)

/-- Decoding a word, total: its instruction, or the class of malformed word it belongs to (R84, R97). -/
def decode (e : Enc) (w : Word) : Except Malformed Instr :=
  match dispatch e w with
  | some m => .ok (assemble w m)
  | none => .error (malformedReason e w)

/-- Encoding an instruction by the layout and key of its row (R78, R93), a field the row does not name
written as zero. -/
def encode (e : Enc) : Instr → Word
  | .sll rd rt shamt => encodeR 0 0 rt rd shamt e.sll
  | .srl rd rs shamt => encodeR 0 rs 0 rd shamt e.srl
  | .sra rd rt shamt => encodeR 0 0 rt rd shamt e.sra
  | .sllv rd rt rs => encodeR 0 rs rt rd 0 e.sllv
  | .srlv rd rt rs => encodeR 0 rs rt rd 0 e.srlv
  | .srav rd rt rs => encodeR 0 rs rt rd 0 e.srav
  | .jr rs => encodeR 0 rs 0 0 0 e.jr
  | .jalr rd rs => encodeR 0 rs 0 rd 0 e.jalr
  | .syscall => encodeR 0 0 0 0 0 e.syscall
  | .brk rd => encodeR 0 0 0 rd 0 e.brk
  | .mfhi rd => encodeR 0 0 0 rd 0 e.mfhi
  | .mthi rd => encodeR 0 0 0 rd 0 e.mthi
  | .mflo rd => encodeR 0 0 0 rd 0 e.mflo
  | .mtlo rd => encodeR 0 0 0 rd 0 e.mtlo
  | .mult rs rt => encodeR 0 rs rt 0 0 e.mult
  | .multu rs rt => encodeR 0 rs rt 0 0 e.multu
  | .div rs rt => encodeR 0 rs rt 0 0 e.div
  | .divu rs rt => encodeR 0 rs rt 0 0 e.divu
  | .mul rd rs rt => encodeR 0 rs rt rd 0 e.mul
  | .add rd rs rt => encodeR 0 rs rt rd 0 e.add
  | .addu rd rs rt => encodeR 0 rs rt rd 0 e.addu
  | .sub rd rs rt => encodeR 0 rs rt rd 0 e.sub
  | .subu rd rs rt => encodeR 0 rs rt rd 0 e.subu
  | .and rd rs rt => encodeR 0 rs rt rd 0 e.and
  | .or rd rs rt => encodeR 0 rs rt rd 0 e.or
  | .xor rd rs rt => encodeR 0 rs rt rd 0 e.xor
  | .nor rd rs rt => encodeR 0 rs rt rd 0 e.nor
  | .slt rd rs rt => encodeR 0 rs rt rd 0 e.slt
  | .sltu rd rs rt => encodeR 0 rs rt rd 0 e.sltu
  | .bltz rs imm16 => encodeI e.bltz rs (e.bltzRt.getD 0) imm16
  | .bgez rs imm16 => encodeI e.bgez rs (e.bgezRt.getD 0) imm16
  | .j addr => encodeJ e.j addr
  | .jal addr => encodeJ e.jal addr
  | .beq rs rt imm16 => encodeI e.beq rs rt imm16
  | .bne rs rt imm16 => encodeI e.bne rs rt imm16
  | .blez rs imm16 => encodeI e.blez rs 0 imm16
  | .bgtz rs imm16 => encodeI e.bgtz rs 0 imm16
  | .addi rt rs imm16 => encodeI e.addi rs rt imm16
  | .addiu rt rs imm16 => encodeI e.addiu rs rt imm16
  | .slti rt rs imm16 => encodeI e.slti rs rt imm16
  | .sltiu rt rs imm16 => encodeI e.sltiu rs rt imm16
  | .andi rt rs imm16 => encodeI e.andi rs rt imm16
  | .ori rt rs imm16 => encodeI e.ori rs rt imm16
  | .xori rt rs imm16 => encodeI e.xori rs rt imm16
  | .lui rt imm16 => encodeI e.lui 0 rt imm16
  | .lb rt imm16 rs => encodeI e.lb rs rt imm16
  | .lh rt imm16 rs => encodeI e.lh rs rt imm16
  | .lw rt imm16 rs => encodeI e.lw rs rt imm16
  | .sb rt imm16 rs => encodeI e.sb rs rt imm16
  | .sh rt imm16 rs => encodeI e.sh rs rt imm16
  | .sw rt imm16 rs => encodeI e.sw rs rt imm16

/-- The instruction the decoder reads from a word given as the opcode table numbers its bits: bit 0 the
least significant, bits from `nbits` up zero. A number wider than the one instruction length, 32 bits
(R70), is no instruction word. -/
def decodeTableWord (nbits w : Nat) : Option Instr :=
  let v := w % 2 ^ nbits
  if v < 2 ^ 32 then
    match decode Enc.default (BitVec.ofNat 32 v) with
    | .ok i => some i
    | .error _ => none
  else none

end Sys2Proof
end

