-- ==== Sys2Proof/Machine/Defaults.lean ====
section
/-! DEFINITION. The default configuration and the well-formedness of a configuration (00_scope.md R7). -/

namespace Sys2Proof

/-- The default configuration (R7). The spec gives IMEM_CAPACITY no default: 1024, the value of the spec's
own test vectors, is a DESIGN CHOICE (log entry 2); HALT_PC is IMEM_CAPACITY by default. -/
def Config.default : Config where
  imemCapacity := 1024
  haltPc := 1024
  stepLimit := none
  enc := Enc.default
  syscallNumReg := 2
  syscallArgReg := 4

/-- The constraints of R7: `1 <= IMEM_CAPACITY <= HALT_PC <= 2^32 - 1` (the last by the width of `haltPc`)
and a well-formed opcode assignment (R94). The syscall registers are 0 to 31 by their type. -/
def Config.wf (c : Config) : Bool :=
  decide (1 ≤ c.imemCapacity) && decide (c.imemCapacity ≤ c.haltPc.toNat) && c.enc.wf

end Sys2Proof
end

