-- ==== Sys2Proof/Machine/State.lean ====
section
/-! DEFINITION. The state of the core as plain data (10_state.md R39), its reset value (R40), and the
reasons a step can stop. -/

namespace Sys2Proof.Machine

/-- The run state (R31). -/
inductive RunState
  | running | halted
deriving DecidableEq, Repr

/-- The sub-cause of an ArithmeticFault (R32, 60_exceptions.md R206). -/
inductive ArithCause
  | divisionByZero | divisionOverflow
deriving DecidableEq, Repr

/-- The typed failures with the information they record (R32, R206). `index` is the value `pc` had when
the instruction was fetched. -/
inductive Failure
  | malformedInstruction (word index : Word)
  | arithmeticFault (cause : ArithCause) (index : Word)
  | unknownSyscall (number index : Word)
deriving DecidableEq, Repr

/-- An output event (R33). -/
inductive OutEvent
  | printInt (v : Word)
  | printChar (c : BitVec 8)
  | unknownSyscallMessage (n : Word)
deriving DecidableEq, Repr

/-- The instruction buffer: the cells that hold a word, as (index, word) pairs in strictly rising order
(R35). The addressable unit is one 32-bit word (20_memory.md R52, log entry 5); a cell that is not listed
has no value (R57, log entry 6). -/
abbrev Memory := List (Nat × Word)

/-- The canonical form: indices strictly rising. An unlisted cell has no value, so no entry can repeat it. -/
abbrev Memory.wf (m : Memory) : Prop := m.Pairwise fun p q => p.1 < q.1

/-- The complete state of the core (R39), and the configuration the run is made with, which no step
changes (R7, log entry 1). -/
structure State where
  /-- `x[0]` to `x[31]` (R20). -/
  regs : Vector Word 32
  /-- The accumulator `HI` (R25). -/
  hi : Word
  /-- The accumulator `LO` (R25). -/
  lo : Word
  /-- The program counter, an index counted in words (R28). -/
  pc : Word
  /-- The run state (R31). -/
  run : RunState
  /-- The failure record (R32). -/
  fail : Option Failure
  /-- The output stream, oldest event first (R33). -/
  out : List OutEvent
  /-- The step count (R34). -/
  steps : Nat
  /-- The instruction buffer (R35). -/
  imem : Memory
  /-- PROG_LEN, the number of loaded words (R7, R39). -/
  progLen : Nat
  /-- The configuration record (R7). -/
  cfg : Config
deriving DecidableEq, Repr

/-- Why the machine stops with a fault. No instruction's meaning raises one: both come from the loop. -/
inductive Fault
  /-- Raised by `step` on a HALTED state, where the spec has no step (70_reset_and_hazards.md R240,
  93_implementation_defined.md row 23, "stuck"). Safe. -/
  | halted
  /-- Raised by `step` where the cell at `pc < PROG_LEN` holds no word: a state no load makes (R57, log
  entry 6). Safe. -/
  | unloadedCell
deriving DecidableEq, Repr

/-- Why a step is refused. -/
inductive Refusal
  /-- Raised by an arm of `exec` whose instruction has no meaning yet (none is left). Safe. -/
  | notModelled (mnemonic : String)
  /-- Raised by `step` where the configuration breaks R7 or R94, or PROG_LEN exceeds IMEM_CAPACITY: outside
  the model's precondition (93_implementation_defined.md rows 21, 22, "refuse"; log entry 7). Safe. -/
  | configuration
deriving DecidableEq, Repr

/-- The state right after reset, before a load (R235, R40). The registers, `pc`, `run`, `fail`, `out` and
`steps` are as the spec says; no word is loaded (log entry 11); the configuration is the default one. -/
def State.reset : State where
  regs := Vector.replicate 32 0
  hi := 0
  lo := 0
  pc := 0
  run := .running
  fail := none
  out := []
  steps := 0
  imem := []
  progLen := 0
  cfg := Config.default

end Sys2Proof.Machine
end

