-- ==== Sys2Proof/Machine/Ops.lean ====
section
/-! DEFINITION. The operations the meanings and the loop are written over: the instruction buffer, the
registers, the output stream, the end of an instruction, and raising a failure. -/

namespace Sys2Proof.Machine

/-! ## The instruction buffer -/

/-- `IMem(i)`: the word a cell holds, if one was loaded (20_memory.md R52, R57). -/
def Memory.read : Memory → Nat → Option Word
  | [], _ => none
  | (b, w) :: m, a => if a = b then some w else Memory.read m a

/-- Placing a word in a cell, keeping the canonical form: the load phase's only operation (R62). -/
def Memory.write : Memory → Nat → Word → Memory
  | [], a, v => [(a, v)]
  | (b, w) :: m, a, v =>
    if a < b then (a, v) :: (b, w) :: m
    else if a = b then (a, v) :: m
    else (b, w) :: Memory.write m a v

/-- Word `k` of the sequence becomes cell `base + k` (70_reset_and_hazards.md R238). -/
def Memory.ofWords (base : Nat) : List Word → Memory
  | [] => []
  | w :: ws => (base, w) :: Memory.ofWords (base + 1) ws

/-! ## Registers, accumulators, output -/

/-- `x[i]`: the pattern in the cell (00_scope.md R11). Register 0 is an ordinary cell that the loop clears
at the end of every instruction (10_state.md R22), so a read needs no special case. -/
def State.reg (s : State) (i : RegIdx) : Word := s.regs[i.toNat]'i.isLt

/-- `x[i] <- v` (R11). A write to register 0 takes place and is undone by `retireTo` (R22). -/
def State.setReg (s : State) (i : RegIdx) (v : Word) : State :=
  { s with regs := s.regs.set i.toNat v i.isLt }

/-- `HI <- v` (R11, R25). -/
def State.setHi (s : State) (v : Word) : State := { s with hi := v }

/-- `LO <- v` (R11, R25). -/
def State.setLo (s : State) (v : Word) : State := { s with lo := v }

/-- `out <- out ++ [e]` (R11, R33). -/
def State.emit (s : State) (e : OutEvent) : State := { s with out := s.out ++ [e] }

/-! ## The end of an instruction -/

/-- The end of a completed handler that set `pc` to `t`: `x[0] <- 0`, and no further increment
(70_reset_and_hazards.md R244, R245). -/
def State.retireTo (s : State) (t : Word) : State := { s.setReg 0 0 with pc := t }

/-- The end of a completed handler that did not write `pc`: `x[0] <- 0`, then `pc <- pc + 1` (R244, R245). -/
def State.retire (s : State) : State := s.retireTo (s.pc + 1)

/-- Taking a failure, the core's only exception (60_exceptions.md R210): the record is set and the run
state becomes HALTED. Nothing is saved elsewhere, no mode changes, control goes nowhere. There is no return
from one (R213), so no operation stands beside this one. -/
def State.raise (s : State) (f : Failure) : State := { s with fail := some f, run := .halted }

/-- `halt`: HALTED without a failure (R11, R241). -/
def State.halt (s : State) : State := { s with run := .halted }

/-- The one increment of the step count by a step that executes an instruction (10_state.md R34, R240). -/
def State.tick (s : State) : State := { s with steps := s.steps + 1 }

/-! ## The shapes of a completed instruction -/

/-- A handler whose one write is `x[d] <- v`. -/
def writeReg (d : RegIdx) (v : Word) (s : State) : Host.Outcome State Fault Refusal :=
  .next (s.setReg d v).retire

/-- A handler that writes `HI` and `LO`. -/
def writeAcc (hi lo : Word) (s : State) : Host.Outcome State Fault Refusal :=
  .next ((s.setHi hi).setLo lo).retire

/-- A handler whose one write is `pc <- t`. -/
def jumpTo (t : Word) (s : State) : Host.Outcome State Fault Refusal :=
  .next (s.retireTo t)

/-- A handler that raises `f` before any write (R210). -/
def failWith (f : Failure) (s : State) : Host.Outcome State Fault Refusal :=
  .next (s.raise f)

end Sys2Proof.Machine
end

