-- ==== Sys2Proof/Machine/Operands.lean ====
section
/-! DEFINITION. Operand forms and the arithmetic of the handlers, each on 32-bit patterns: computed
exactly on integers and narrowed by `trunc32` where the spec says so (00_scope.md R9, R11). The
immediate forms `sext32` and `zext32` stand in Decode.lean. -/

namespace Sys2Proof.Machine

/-- `trunc32(a + b)` (40_arith_logic.md R129). -/
def addWrap (a b : Word) : Word := trunc32 (s32 a + s32 b)

/-- `trunc32(a - b)` (R129). -/
def subWrap (a b : Word) : Word := trunc32 (s32 a - s32 b)

/-- `trunc32(a * b)`, the low 32 bits of the product (42_muldiv.md R151, R160). -/
def mulWrap (a b : Word) : Word := trunc32 (s32 a * s32 b)

/-- The quotient rounded toward zero, narrowed (42_muldiv.md R153). -/
def quotient (a b : Word) : Word := trunc32 ((s32 a).tdiv (s32 b))

/-- The remainder `a - q * b`, narrowed (R153). -/
def remainder (a b : Word) : Word := trunc32 (s32 a - (s32 a).tdiv (s32 b) * s32 b)

/-- The count of a variable shift: `x[rs][4:0]` (41_shift.md R140). -/
def shiftCount (v : Word) : BitVec 5 := v.extractLsb' 0 5

/-- `v << n = trunc32(v * 2^n)` (00_scope.md R11). -/
def shiftLeft (v : Word) (n : BitVec 5) : Word := trunc32 (u32 v * 2 ^ n.toNat)

/-- `v >>u n = floor(u32(v) / 2^n)` (R11). -/
def shiftRightU (v : Word) (n : BitVec 5) : Word := BitVec.ofNat 32 (v.toNat / 2 ^ n.toNat)

/-- `v >>s n = trunc32(floor(s32(v) / 2^n))`, floor toward minus infinity (R11). -/
def shiftRightS (v : Word) (n : BitVec 5) : Word := trunc32 ((s32 v).fdiv (2 ^ n.toNat))

/-- `imm16 ++ 0x0000` (40_arith_logic.md R128). -/
def upperImm (imm16 : BitVec 16) : Word := trunc32 (imm16.toNat * 2 ^ 16)

/-- The target of a taken branch, `trunc32(pc + s32(imm))`, relative to the branch itself (44_control.md
R175). -/
def branchTarget (pc : Word) (imm16 : BitVec 16) : Word := trunc32 (u32 pc + s32 (sext32 imm16))

/-- The register an `addr` field of at most 31 names (44_control.md R182, 10_state.md R43). -/
def addrReg (addr : BitVec 26) : RegIdx := addr.extractLsb' 0 5

end Sys2Proof.Machine
end

