-- ==== Sys2Proof/Machine/Flags.lean ====
section
/-! DEFINITION. The core has no flags (10_state.md R36): a comparison writes 0 or 1 to a register or steers
`pc`. This file holds those conditions. Every ordering comparison is signed (40_arith_logic.md R130). -/

namespace Sys2Proof.Machine

/-- `s32(a) < s32(b)` (R124 to R127). -/
def lessThan (a b : Word) : Bool := decide (s32 a < s32 b)

/-- The pattern a comparison writes: 1 or 0 (R124). -/
def boolWord (b : Bool) : Word := if b then 1 else 0

/-- `x[rs] = x[rt]`, a comparison of patterns (44_control.md R176). -/
def equal (a b : Word) : Bool := a == b

/-- `s32(x[rs]) >= 0` (R178). -/
def geZero (a : Word) : Bool := decide (s32 a ≥ 0)

/-- `s32(x[rs]) > 0` (R179). -/
def gtZero (a : Word) : Bool := decide (s32 a > 0)

/-- `s32(x[rs]) <= 0` (R180). -/
def leZero (a : Word) : Bool := decide (s32 a ≤ 0)

/-- `s32(x[rs]) < 0` (R181). -/
def ltZero (a : Word) : Bool := decide (s32 a < 0)

end Sys2Proof.Machine
end

