-- ==== Sys2Proof/Machine/Arith.lean ====
section
/-! DEFINITION. Arithmetic, logic, comparison and load-upper instructions (40_arith_logic.md R110 to R128). -/

namespace Sys2Proof.Machine

/-- `add` (R111): the sum wraps, overflow does not trap. -/
def execAdd (rd rs rt : RegIdx) (s : State) : Host.Outcome State Fault Refusal :=
  writeReg rd (addWrap (s.reg rs) (s.reg rt)) s

/-- `addu` (R112): the same effect as `add`. -/
def execAddu (rd rs rt : RegIdx) (s : State) : Host.Outcome State Fault Refusal :=
  writeReg rd (addWrap (s.reg rs) (s.reg rt)) s

/-- `addi` (R113): no overflow trap. -/
def execAddi (rt rs : RegIdx) (imm16 : BitVec 16) (s : State) : Host.Outcome State Fault Refusal :=
  writeReg rt (addWrap (s.reg rs) (sext32 imm16)) s

/-- `addiu` (R114): the immediate is sign-extended, despite the "u". -/
def execAddiu (rt rs : RegIdx) (imm16 : BitVec 16) (s : State) : Host.Outcome State Fault Refusal :=
  writeReg rt (addWrap (s.reg rs) (sext32 imm16)) s

/-- `and` (R115). -/
def execAnd (rd rs rt : RegIdx) (s : State) : Host.Outcome State Fault Refusal :=
  writeReg rd (s.reg rs &&& s.reg rt) s

/-- `andi` (R116): the immediate is zero-extended. -/
def execAndi (rt rs : RegIdx) (imm16 : BitVec 16) (s : State) : Host.Outcome State Fault Refusal :=
  writeReg rt (s.reg rs &&& zext32 imm16) s

/-- `or` (R117). -/
def execOr (rd rs rt : RegIdx) (s : State) : Host.Outcome State Fault Refusal :=
  writeReg rd (s.reg rs ||| s.reg rt) s

/-- `ori` (R118): the immediate is zero-extended. -/
def execOri (rt rs : RegIdx) (imm16 : BitVec 16) (s : State) : Host.Outcome State Fault Refusal :=
  writeReg rt (s.reg rs ||| zext32 imm16) s

/-- `nor` (R119). -/
def execNor (rd rs rt : RegIdx) (s : State) : Host.Outcome State Fault Refusal :=
  writeReg rd (~~~(s.reg rs ||| s.reg rt)) s

/-- `xor` (R120). -/
def execXor (rd rs rt : RegIdx) (s : State) : Host.Outcome State Fault Refusal :=
  writeReg rd (s.reg rs ^^^ s.reg rt) s

/-- `xori` (R121): the immediate is zero-extended. -/
def execXori (rt rs : RegIdx) (imm16 : BitVec 16) (s : State) : Host.Outcome State Fault Refusal :=
  writeReg rt (s.reg rs ^^^ zext32 imm16) s

/-- `sub` (R122): the difference wraps, overflow does not trap. -/
def execSub (rd rs rt : RegIdx) (s : State) : Host.Outcome State Fault Refusal :=
  writeReg rd (subWrap (s.reg rs) (s.reg rt)) s

/-- `subu` (R123): the same effect as `sub`. -/
def execSubu (rd rs rt : RegIdx) (s : State) : Host.Outcome State Fault Refusal :=
  writeReg rd (subWrap (s.reg rs) (s.reg rt)) s

/-- `slt` (R124). -/
def execSlt (rd rs rt : RegIdx) (s : State) : Host.Outcome State Fault Refusal :=
  writeReg rd (boolWord (lessThan (s.reg rs) (s.reg rt))) s

/-- `sltu` (R125): the comparison is signed, the same as `slt`. -/
def execSltu (rd rs rt : RegIdx) (s : State) : Host.Outcome State Fault Refusal :=
  writeReg rd (boolWord (lessThan (s.reg rs) (s.reg rt))) s

/-- `slti` (R126). -/
def execSlti (rt rs : RegIdx) (imm16 : BitVec 16) (s : State) : Host.Outcome State Fault Refusal :=
  writeReg rt (boolWord (lessThan (s.reg rs) (sext32 imm16))) s

/-- `sltiu` (R127): signed, the same as `slti`. -/
def execSltiu (rt rs : RegIdx) (imm16 : BitVec 16) (s : State) : Host.Outcome State Fault Refusal :=
  writeReg rt (boolWord (lessThan (s.reg rs) (sext32 imm16))) s

/-- `lui` (R128); the `rs` field is ignored. -/
def execLui (rt : RegIdx) (imm16 : BitVec 16) (s : State) : Host.Outcome State Fault Refusal :=
  writeReg rt (upperImm imm16) s

end Sys2Proof.Machine
end

