-- ==== Sys2Proof/Machine/Control.lean ====
section
/-! DEFINITION. Branch and jump instructions (44_control.md R175 to R189). -/

namespace Sys2Proof.Machine

/-- A conditional branch: `pc + imm` when taken, `pc + 1` when not; the pseudocode sets `pc` on both paths (R175, R245). -/
def branch (taken : Bool) (imm16 : BitVec 16) (s : State) : Host.Outcome State Fault Refusal :=
  jumpTo (if taken then branchTarget s.pc imm16 else s.pc + 1) s

/-- `pc <- x[addr]` (R182). With `addr` above 31 the instruction fails as a malformed word `w` (10_state.md R29, log entry 10); the decoder never gives such a term. -/
def jumpThrough (w : Word) (addr : BitVec 26) (s : State) : Host.Outcome State Fault Refusal :=
  if addrLegal addr then jumpTo (s.reg (addrReg addr)) s
  else failWith (.malformedInstruction w s.pc) s

/-- `beq` (R176). -/
def execBeq (rs rt : RegIdx) (imm16 : BitVec 16) (s : State) : Host.Outcome State Fault Refusal :=
  branch (equal (s.reg rs) (s.reg rt)) imm16 s

/-- `bne` (R177). -/
def execBne (rs rt : RegIdx) (imm16 : BitVec 16) (s : State) : Host.Outcome State Fault Refusal :=
  branch (!equal (s.reg rs) (s.reg rt)) imm16 s

/-- `bgez` (R178). -/
def execBgez (rs : RegIdx) (imm16 : BitVec 16) (s : State) : Host.Outcome State Fault Refusal :=
  branch (geZero (s.reg rs)) imm16 s

/-- `bgtz` (R179). -/
def execBgtz (rs : RegIdx) (imm16 : BitVec 16) (s : State) : Host.Outcome State Fault Refusal :=
  branch (gtZero (s.reg rs)) imm16 s

/-- `blez` (R180). -/
def execBlez (rs : RegIdx) (imm16 : BitVec 16) (s : State) : Host.Outcome State Fault Refusal :=
  branch (leZero (s.reg rs)) imm16 s

/-- `bltz` (R181). -/
def execBltz (rs : RegIdx) (imm16 : BitVec 16) (s : State) : Host.Outcome State Fault Refusal :=
  branch (ltZero (s.reg rs)) imm16 s

/-- `j` (R182). -/
def execJ (addr : BitVec 26) (s : State) : Host.Outcome State Fault Refusal :=
  jumpThrough (encode s.cfg.enc (.j addr)) addr s

/-- `jal` (R183): as `j`, no link is written. -/
def execJal (addr : BitVec 26) (s : State) : Host.Outcome State Fault Refusal :=
  jumpThrough (encode s.cfg.enc (.jal addr)) addr s

/-- `jr` (R184). -/
def execJr (rs : RegIdx) (s : State) : Host.Outcome State Fault Refusal :=
  jumpTo (s.reg rs) s

/-- `jalr` (R185): links its own index, then reads `x[rs]`, which sees the link when `rd = rs`, register 0 included. -/
def execJalr (rd rs : RegIdx) (s : State) : Host.Outcome State Fault Refusal :=
  let s₁ := s.setReg rd s.pc
  jumpTo (s₁.reg rs) s₁

end Sys2Proof.Machine
end

