-- ==== Sys2Proof/Machine/LoadStore.lean ====
section
/-! DEFINITION. Loads and stores, which copy registers: the core has no data memory (43_loadstore.md R165 to R172). -/

namespace Sys2Proof.Machine

/-- `lb` (R166): all 32 bits of `x[rs]` go to `x[rt]`; the immediate is ignored. -/
def execLb (rt : RegIdx) (_imm16 : BitVec 16) (rs : RegIdx) (s : State) : Host.Outcome State Fault Refusal :=
  writeReg rt (s.reg rs) s

/-- `lh` (R167): all 32 bits of `x[rs]` go to `x[rt]`; the immediate is ignored. -/
def execLh (rt : RegIdx) (_imm16 : BitVec 16) (rs : RegIdx) (s : State) : Host.Outcome State Fault Refusal :=
  writeReg rt (s.reg rs) s

/-- `lw` (R168): all 32 bits of `x[rs]` go to `x[rt]`; the immediate is ignored. -/
def execLw (rt : RegIdx) (_imm16 : BitVec 16) (rs : RegIdx) (s : State) : Host.Outcome State Fault Refusal :=
  writeReg rt (s.reg rs) s

/-- `sb` (R169): all 32 bits of `x[rt]` go to `x[rs]`; the immediate is ignored. -/
def execSb (rt : RegIdx) (_imm16 : BitVec 16) (rs : RegIdx) (s : State) : Host.Outcome State Fault Refusal :=
  writeReg rs (s.reg rt) s

/-- `sh` (R170): all 32 bits of `x[rt]` go to `x[rs]`; the immediate is ignored. -/
def execSh (rt : RegIdx) (_imm16 : BitVec 16) (rs : RegIdx) (s : State) : Host.Outcome State Fault Refusal :=
  writeReg rs (s.reg rt) s

/-- `sw` (R171): all 32 bits of `x[rt]` go to `x[rs]`; the immediate is ignored. -/
def execSw (rt : RegIdx) (_imm16 : BitVec 16) (rs : RegIdx) (s : State) : Host.Outcome State Fault Refusal :=
  writeReg rs (s.reg rt) s

end Sys2Proof.Machine
end

