-- ==== Sys2Proof/Machine/MulDiv.lean ====
section
/-! DEFINITION. Multiply, divide and accumulator-move instructions (42_muldiv.md R150 to R159). -/

namespace Sys2Proof.Machine

/-- `mult` (R151): both accumulators receive the low 32 bits of the product. -/
def execMult (rs rt : RegIdx) (s : State) : Host.Outcome State Fault Refusal :=
  writeAcc (mulWrap (s.reg rs) (s.reg rt)) (mulWrap (s.reg rs) (s.reg rt)) s

/-- `multu` (R152): identical to `mult`. -/
def execMultu (rs rt : RegIdx) (s : State) : Host.Outcome State Fault Refusal :=
  writeAcc (mulWrap (s.reg rs) (s.reg rt)) (mulWrap (s.reg rs) (s.reg rt)) s

/-- The signed division both `div` and `divu` perform, its two failures tested before any write (R153). -/
def divide (rs rt : RegIdx) (s : State) : Host.Outcome State Fault Refusal :=
  if s32 (s.reg rt) = 0 then failWith (.arithmeticFault .divisionByZero s.pc) s
  else if s32 (s.reg rs) = -2 ^ 31 ∧ s32 (s.reg rt) = -1 then
    failWith (.arithmeticFault .divisionOverflow s.pc) s
  else writeAcc (remainder (s.reg rs) (s.reg rt)) (quotient (s.reg rs) (s.reg rt)) s

/-- `div` (R153). -/
def execDiv (rs rt : RegIdx) (s : State) : Host.Outcome State Fault Refusal :=
  divide rs rt s

/-- `divu` (R154): exactly `div`, signed. -/
def execDivu (rs rt : RegIdx) (s : State) : Host.Outcome State Fault Refusal :=
  divide rs rt s

/-- `mfhi` (R155). -/
def execMfhi (rd : RegIdx) (s : State) : Host.Outcome State Fault Refusal :=
  writeReg rd s.hi s

/-- `mflo` (R156). -/
def execMflo (rd : RegIdx) (s : State) : Host.Outcome State Fault Refusal :=
  writeReg rd s.lo s

/-- `mthi` (R157): the source is `x[rd]`. -/
def execMthi (rd : RegIdx) (s : State) : Host.Outcome State Fault Refusal :=
  .next (s.setHi (s.reg rd)).retire

/-- `mtlo` (R158): the source is `x[rd]`. -/
def execMtlo (rd : RegIdx) (s : State) : Host.Outcome State Fault Refusal :=
  .next (s.setLo (s.reg rd)).retire

/-- `mul` (R159): `mult` then `mflo` in one step; `HI` and `LO` are overwritten. -/
def execMul (rd rs rt : RegIdx) (s : State) : Host.Outcome State Fault Refusal :=
  let p := mulWrap (s.reg rs) (s.reg rt)
  let s₁ := (s.setHi p).setLo p
  writeReg rd s₁.lo s₁

end Sys2Proof.Machine
end

