-- ==== Sys2Proof/Machine/Shift.lean ====
section
/-! DEFINITION. Shift instructions (41_shift.md R140 to R146). -/

namespace Sys2Proof.Machine

/-- `sll` (R141). -/
def execSll (rd rt : RegIdx) (shamt : BitVec 5) (s : State) : Host.Outcome State Fault Refusal :=
  writeReg rd (shiftLeft (s.reg rt) shamt) s

/-- `sllv` (R142). -/
def execSllv (rd rt rs : RegIdx) (s : State) : Host.Outcome State Fault Refusal :=
  writeReg rd (shiftLeft (s.reg rt) (shiftCount (s.reg rs))) s

/-- `srl` (R143): the source is `x[rs]`, not `x[rt]`. -/
def execSrl (rd rs : RegIdx) (shamt : BitVec 5) (s : State) : Host.Outcome State Fault Refusal :=
  writeReg rd (shiftRightU (s.reg rs) shamt) s

/-- `srlv` (R144). -/
def execSrlv (rd rt rs : RegIdx) (s : State) : Host.Outcome State Fault Refusal :=
  writeReg rd (shiftRightU (s.reg rt) (shiftCount (s.reg rs))) s

/-- `sra` (R145). -/
def execSra (rd rt : RegIdx) (shamt : BitVec 5) (s : State) : Host.Outcome State Fault Refusal :=
  writeReg rd (shiftRightS (s.reg rt) shamt) s

/-- `srav` (R146). -/
def execSrav (rd rt rs : RegIdx) (s : State) : Host.Outcome State Fault Refusal :=
  writeReg rd (shiftRightS (s.reg rt) (shiftCount (s.reg rs))) s

end Sys2Proof.Machine
end

