-- ==== Sys2Proof/Machine/System.lean ====
section
/-! DEFINITION. System instructions: `break` and `syscall` (45_system.md R195 to R199). -/

namespace Sys2Proof.Machine

/-- `break` (R196): a jump through `x[rd]`; it raises nothing. -/
def execBrk (rd : RegIdx) (s : State) : Host.Outcome State Fault Refusal :=
  jumpTo (s.reg rd) s

/-- `syscall` (R197, R198). On an unknown service the loop still clears `x[0]` (70_reset_and_hazards.md R240). -/
def execSyscall (s : State) : Host.Outcome State Fault Refusal :=
  let n := s.reg s.cfg.syscallNumReg
  let a := s.reg s.cfg.syscallArgReg
  if n = 1 then .next (s.emit (.printInt a)).retire
  else if n = 10 then jumpTo s.cfg.haltPc s
  else if n = 11 then .next (s.emit (.printChar (a.extractLsb' 0 8))).retire
  else
    .next (((s.emit (.unknownSyscallMessage n)).retireTo s.cfg.haltPc).raise
      (.unknownSyscall n s.pc))

end Sys2Proof.Machine
end

