-- ==== Sys2Proof/Machine/Dispatch.lean ====
section
/-! DEFINITION. One arm per constructor of `Instr`: a completed handler's effect with the end of the
instruction (70_reset_and_hazards.md R243 to R245), or the failure it raises. -/

namespace Sys2Proof.Machine

def exec (i : Instr) (s : State) : Host.Outcome State Fault Refusal :=
  match i with
  | .sll rd rt shamt => Sys2Proof.Machine.execSll rd rt shamt s
  | .srl rd rs shamt => Sys2Proof.Machine.execSrl rd rs shamt s
  | .sra rd rt shamt => Sys2Proof.Machine.execSra rd rt shamt s
  | .sllv rd rt rs => Sys2Proof.Machine.execSllv rd rt rs s
  | .srlv rd rt rs => Sys2Proof.Machine.execSrlv rd rt rs s
  | .srav rd rt rs => Sys2Proof.Machine.execSrav rd rt rs s
  | .jr rs => Sys2Proof.Machine.execJr rs s
  | .jalr rd rs => Sys2Proof.Machine.execJalr rd rs s
  | .syscall => Sys2Proof.Machine.execSyscall s
  | .brk rd => Sys2Proof.Machine.execBrk rd s
  | .mfhi rd => Sys2Proof.Machine.execMfhi rd s
  | .mthi rd => Sys2Proof.Machine.execMthi rd s
  | .mflo rd => Sys2Proof.Machine.execMflo rd s
  | .mtlo rd => Sys2Proof.Machine.execMtlo rd s
  | .mult rs rt => Sys2Proof.Machine.execMult rs rt s
  | .multu rs rt => Sys2Proof.Machine.execMultu rs rt s
  | .div rs rt => Sys2Proof.Machine.execDiv rs rt s
  | .divu rs rt => Sys2Proof.Machine.execDivu rs rt s
  | .mul rd rs rt => Sys2Proof.Machine.execMul rd rs rt s
  | .add rd rs rt => Sys2Proof.Machine.execAdd rd rs rt s
  | .addu rd rs rt => Sys2Proof.Machine.execAddu rd rs rt s
  | .sub rd rs rt => Sys2Proof.Machine.execSub rd rs rt s
  | .subu rd rs rt => Sys2Proof.Machine.execSubu rd rs rt s
  | .and rd rs rt => Sys2Proof.Machine.execAnd rd rs rt s
  | .or rd rs rt => Sys2Proof.Machine.execOr rd rs rt s
  | .xor rd rs rt => Sys2Proof.Machine.execXor rd rs rt s
  | .nor rd rs rt => Sys2Proof.Machine.execNor rd rs rt s
  | .slt rd rs rt => Sys2Proof.Machine.execSlt rd rs rt s
  | .sltu rd rs rt => Sys2Proof.Machine.execSltu rd rs rt s
  | .bltz rs imm16 => Sys2Proof.Machine.execBltz rs imm16 s
  | .bgez rs imm16 => Sys2Proof.Machine.execBgez rs imm16 s
  | .j addr => Sys2Proof.Machine.execJ addr s
  | .jal addr => Sys2Proof.Machine.execJal addr s
  | .beq rs rt imm16 => Sys2Proof.Machine.execBeq rs rt imm16 s
  | .bne rs rt imm16 => Sys2Proof.Machine.execBne rs rt imm16 s
  | .blez rs imm16 => Sys2Proof.Machine.execBlez rs imm16 s
  | .bgtz rs imm16 => Sys2Proof.Machine.execBgtz rs imm16 s
  | .addi rt rs imm16 => Sys2Proof.Machine.execAddi rt rs imm16 s
  | .addiu rt rs imm16 => Sys2Proof.Machine.execAddiu rt rs imm16 s
  | .slti rt rs imm16 => Sys2Proof.Machine.execSlti rt rs imm16 s
  | .sltiu rt rs imm16 => Sys2Proof.Machine.execSltiu rt rs imm16 s
  | .andi rt rs imm16 => Sys2Proof.Machine.execAndi rt rs imm16 s
  | .ori rt rs imm16 => Sys2Proof.Machine.execOri rt rs imm16 s
  | .xori rt rs imm16 => Sys2Proof.Machine.execXori rt rs imm16 s
  | .lui rt imm16 => Sys2Proof.Machine.execLui rt imm16 s
  | .lb rt imm16 rs => Sys2Proof.Machine.execLb rt imm16 rs s
  | .lh rt imm16 rs => Sys2Proof.Machine.execLh rt imm16 rs s
  | .lw rt imm16 rs => Sys2Proof.Machine.execLw rt imm16 rs s
  | .sb rt imm16 rs => Sys2Proof.Machine.execSb rt imm16 rs s
  | .sh rt imm16 rs => Sys2Proof.Machine.execSh rt imm16 rs s
  | .sw rt imm16 rs => Sys2Proof.Machine.execSw rt imm16 rs s

end Sys2Proof.Machine
end

