-- ==== Sys2Proof/Machine/Fetch.lean ====
section
/-! DEFINITION. What the Execution Loop does around a handler: the precondition, the halt test, the fetch;
and the load phase that comes before the first step (70_reset_and_hazards.md R238 to R242). -/

namespace Sys2Proof.Machine

/-- The model's precondition: a configuration within R7 and R94, and `PROG_LEN <= IMEM_CAPACITY` (R238,
93_implementation_defined.md rows 21 and 22). -/
def State.admissible (s : State) : Bool := s.cfg.wf && decide (s.progLen ≤ s.cfg.imemCapacity)

/-- The halt test: `pc >= PROG_LEN` or `pc >= HALT_PC` (R241). -/
def State.pcOutOfRange (s : State) : Bool :=
  decide (s.progLen ≤ s.pc.toNat) || decide (s.cfg.haltPc.toNat ≤ s.pc.toNat)

/-- The fetch, `IMem(pc)` (R242). -/
def State.fetch (s : State) : Option Word := s.imem.read s.pc.toNat

/-- The load phase: word `k` of the sequence becomes `imem[k]`, and `PROG_LEN` their number. A longer
sequence is cut to the first IMEM_CAPACITY words, as the loader does (R238). -/
def State.load (s : State) (ws : List Word) : State :=
  { s with
    imem := Memory.ofWords 0 (ws.take s.cfg.imemCapacity)
    progLen := (ws.take s.cfg.imemCapacity).length }

/-- The configuration a word is placed for: the state's own, or the default where it breaks R7. -/
def State.usableCfg (s : State) : Config := if s.cfg.wf then s.cfg else Config.default

/-- The index at which `withFetchWord` places a word: `pc`, or 0 where the buffer has no cell there. -/
def State.fetchIndex (s : State) : Word :=
  if s.pc.toNat < s.usableCfg.imemCapacity then s.pc else 0

/-- The state with `w` in the cell the next step fetches, RUNNING, and within the precondition; nothing
else changes (log entry 11). -/
def State.placeWord (s : State) (w : Word) : State :=
  { s with
    cfg := s.usableCfg
    run := .running
    pc := s.fetchIndex
    imem := s.imem.write s.fetchIndex.toNat w
    progLen := max (min s.progLen s.usableCfg.imemCapacity) (s.fetchIndex.toNat + 1) }

end Sys2Proof.Machine
end

