-- ==== Sys2Proof/Machine/Step.lean ====
section
/-! DEFINITION. One step of the Execution Loop (70_reset_and_hazards.md R240), and the host's way to place
one instruction where the next step fetches it. -/

namespace Sys2Proof.Machine

/-- One step (R240): the halt test, the fetch, classify and dispatch, the handler. A state outside the
model's precondition is refused, and a HALTED state has no step. -/
def step (s : State) : Host.Outcome State Fault Refusal :=
  if s.admissible then
    match s.run with
    | .halted => .fault .halted
    | .running =>
      if s.pcOutOfRange then .next s.halt
      else
        match s.fetch with
        | none => .fault .unloadedCell
        | some w =>
          match decode s.cfg.enc w with
          | .error _ => failWith (.malformedInstruction w s.pc) s.tick
          | .ok i => exec i s.tick
  else .refused .configuration

/-- `s` with the instruction word whose bits are `w`, numbered as the opcode table numbers them (bits from
`nbits` up are zero), in the cell the next step fetches. -/
def State.withFetchWord (s : State) (nbits w : Nat) : State :=
  s.placeWord (BitVec.ofNat 32 (w % 2 ^ nbits))

end Sys2Proof.Machine
end

