-- ==== Sys2Proof/Machine/Report.lean ====
section
/-! DEFINITION. What the core exposes to the host's collaborators: mnemonics and operand templates
(30_encoding.md R91), register names (10_state.md R21), failure codes (60_exceptions.md R206), what an
output event stands for (45_system.md R199), and the register listing's content
(70_reset_and_hazards.md R248). No rule of execution depends on this file. -/

namespace Sys2Proof

/-- The mnemonic string the core exposes for tracing (R91). -/
def Mnemonic.name : Mnemonic → String
  | .sll => "sll"
  | .srl => "srl"
  | .sra => "sra"
  | .sllv => "sllv"
  | .srlv => "srlv"
  | .srav => "srav"
  | .jr => "jr"
  | .jalr => "jalr"
  | .syscall => "syscall"
  | .brk => "break"
  | .mfhi => "mfhi"
  | .mthi => "mthi"
  | .mflo => "mflo"
  | .mtlo => "mtlo"
  | .mult => "mult"
  | .multu => "multu"
  | .div => "div"
  | .divu => "divu"
  | .mul => "mul"
  | .add => "add"
  | .addu => "addu"
  | .sub => "sub"
  | .subu => "subu"
  | .and => "and"
  | .or => "or"
  | .xor => "xor"
  | .nor => "nor"
  | .slt => "slt"
  | .sltu => "sltu"
  | .bltz => "bltz"
  | .bgez => "bgez"
  | .j => "j"
  | .jal => "jal"
  | .beq => "beq"
  | .bne => "bne"
  | .blez => "blez"
  | .bgtz => "bgtz"
  | .addi => "addi"
  | .addiu => "addiu"
  | .slti => "slti"
  | .sltiu => "sltiu"
  | .andi => "andi"
  | .ori => "ori"
  | .xori => "xori"
  | .lui => "lui"
  | .lb => "lb"
  | .lh => "lh"
  | .lw => "lw"
  | .sb => "sb"
  | .sh => "sh"
  | .sw => "sw"

/-- The operand-ordering template the core exposes for tracing (R91, R93; informative). -/
def Mnemonic.template : Mnemonic → String
  | .sll | .sra => "rd, rt, shamt"
  | .srl => "rd, rs, shamt"
  | .sllv | .srlv | .srav => "rd, rt, rs"
  | .jr => "rs"
  | .jalr => "rd, rs"
  | .syscall => ""
  | .brk | .mfhi | .mthi | .mflo | .mtlo => "rd"
  | .mult | .multu | .div | .divu => "rs, rt"
  | .mul | .add | .addu | .sub | .subu | .and | .or | .xor | .nor | .slt | .sltu => "rd, rs, rt"
  | .bltz | .bgez | .blez | .bgtz => "rs, off"
  | .j | .jal => "addr"
  | .beq | .bne => "rs, rt, off"
  | .addi | .addiu | .slti | .sltiu => "rt, rs, off"
  | .andi | .ori | .xori => "rt, rs, imm16"
  | .lui => "rt, imm16"
  | .lb | .lh | .lw | .sb | .sh | .sw => "rt, off(rs)"

/-- What the disassembly printer gets for a word: the mnemonic and operand template of its row, nothing for
a malformed word (R91, R249). -/
def disassemblyEntry (e : Enc) (w : Word) : Option (String × String) :=
  (dispatch e w).map fun m => (m.name, m.template)

/-- The names of the general registers in index order (R21). -/
def registerNames : Vector String 32 :=
  #v["$zero", "$at", "$v0", "$v1", "$a0", "$a1", "$a2", "$a3",
     "$t0", "$t1", "$t2", "$t3", "$t4", "$t5", "$t6", "$t7",
     "$s0", "$s1", "$s2", "$s3", "$s4", "$s5", "$s6", "$s7",
     "$t8", "$t9", "$k0", "$k1", "$gp", "$sp", "$fp", "$ra"]

/-- The name of a general register (R21). -/
def registerName (i : RegIdx) : String := registerNames[i.toNat]'i.isLt

namespace Machine

/-- The numeric code of a failure's kind (R206). -/
def Failure.code : Failure → Nat
  | .malformedInstruction _ _ => 1
  | .arithmeticFault _ _ => 2
  | .unknownSyscall _ _ => 3

/-- The numeric code of an ArithmeticFault's sub-cause (R206). -/
def ArithCause.code : ArithCause → Nat
  | .divisionByZero => 1
  | .divisionOverflow => 2

/-- The exit status a host should report: 0 for success, else the failure's code (R248). -/
def State.exitStatus (s : State) : Nat := (s.fail.map Failure.code).getD 0

/-- The register listing's content: every non-zero general register with its value, in index order (R248). -/
def State.listing (s : State) : List (RegIdx × Word) :=
  ((List.range 32).map (BitVec.ofNat 5)).filterMap fun i =>
    if s.reg i = 0 then none else some (i, s.reg i)

/-- The decimal digits of a number, most significant first, no leading zero; `fuel` bounds their number. -/
def decimalDigits : Nat → Nat → List Nat
  | 0, _ => []
  | fuel + 1, n => if n < 10 then [n] else decimalDigits fuel (n / 10) ++ [n % 10]

/-- The decimal numeral of `s32(a)`: "an optional minus sign and the digits with no leading zero, no padding
and no line end" (R199), as ASCII bytes (PRESUMED, log entry 13). Ten digits hold every 32-bit value. -/
def numeral (a : Word) : List (BitVec 8) :=
  (if s32 a < 0 then [0x2D] else []) ++
    (decimalDigits 10 (s32 a).natAbs).map fun d => 0x30 + BitVec.ofNat 8 d

/-- The bytes an output event stands for (R199); the unknown-service diagnostic has no normative text. -/
def OutEvent.content : OutEvent → Option (List (BitVec 8))
  | .printInt a => some (numeral a)
  | .printChar c => some [c]
  | .unknownSyscallMessage _ => none

end Machine

end Sys2Proof
end

