-- ==== Sys2Proof/Machine/Run.lean ====
section
/-! DEFINITION. The host's run function `run_to_halt` and its step ceiling (70_reset_and_hazards.md R246). It
stands outside the core: `step` does not know the ceiling. -/

namespace Sys2Proof.Machine

/-- How a run ended (R246). The last three are the model's own: a bound that ran out before the run ended,
and a step that answered no state. -/
inductive RunResult
  | halted (s : State)
  | outOfSteps (s : State)
  | unfinished (s : State)
  | faulted (f : Fault)
  | refused (r : Refusal)
deriving DecidableEq, Repr

/-- STEP_LIMIT is given and `steps` has reached it (R246). -/
def State.limitReached (s : State) : Bool :=
  match s.cfg.stepLimit with
  | none => false
  | some n => decide (n ≤ s.steps)

/-- What ends a run before its next step: HALTED, or the ceiling (R246). -/
def State.ended (s : State) : Option RunResult :=
  match s.run with
  | .halted => some (.halted s)
  | .running => if s.limitReached then some (.outOfSteps s) else none

/-- `run_to_halt`: `step` is applied while `run = RUNNING` and the ceiling allows it (R246). With no ceiling
it is partial (R254), so the model takes at most `fuel` steps and answers `unfinished` after them (log
entry 12). -/
def runToHalt : Nat → State → RunResult
  | 0, s => s.ended.getD (.unfinished s)
  | fuel + 1, s =>
    match s.ended with
    | some r => r
    | none =>
      match step s with
      | .next t => runToHalt fuel t
      | .fault f => .faulted f
      | .refused r => .refused r

end Sys2Proof.Machine
end

