-- ==== Sys2Proof/Safety.lean ====
section
/-! DEFINITION. The terms claims are stated in: the end states of a run, the invariant of the machine, the
words as the spec writes them, and what an instruction leaves unchanged. -/

namespace Sys2Proof.Machine

/-! ## End states (60_exceptions.md R214) -/

/-- A normal halt, the only good end of a run. -/
def State.normalHalt (s : State) : Prop := s.run = .halted ∧ s.fail = none

/-- A failed run. -/
def State.failedRun (s : State) : Prop := s.run = .halted ∧ s.fail ≠ none

/-! ## The invariant -/

/-- What a failure record says of the state it ends the run in (60_exceptions.md R206 to R210). -/
def FailureExplained (s : State) : Failure → Prop
  | .malformedInstruction w i =>
    s.pc = i ∧ s.imem.read i.toNat = some w ∧ ∃ r, decode s.cfg.enc w = .error r
  | .arithmeticFault c i =>
    s.pc = i ∧ ∃ w rs rt, s.imem.read i.toNat = some w ∧
      (decode s.cfg.enc w = .ok (.div rs rt) ∨ decode s.cfg.enc w = .ok (.divu rs rt)) ∧
      match c with
      | .divisionByZero => s.reg rt = 0
      | .divisionOverflow => s.reg rs = 0x80000000 ∧ s.reg rt = 0xFFFFFFFF
  | .unknownSyscall n i =>
    s.pc = s.cfg.haltPc ∧ n ≠ 1 ∧ n ≠ 10 ∧ n ≠ 11 ∧ i.toNat < s.progLen ∧
      s.out.getLast? = some (.unknownSyscallMessage n)

/-- The invariant of the machine: what every reachable state satisfies. -/
structure State.Inv (s : State) : Prop where
  /-- The configuration is within R7 and R94. -/
  config : s.cfg.wf = true
  /-- `PROG_LEN <= IMEM_CAPACITY` (R7). -/
  length : s.progLen ≤ s.cfg.imemCapacity
  /-- The buffer keeps its canonical form. -/
  canonical : s.imem.wf
  /-- Every cell that holds a word is a cell of the buffer (20_memory.md R52). -/
  cells : ∀ a w, s.imem.read a = some w → a < s.cfg.imemCapacity
  /-- Every cell below PROG_LEN holds a word (R56). -/
  loaded : ∀ a, a < s.progLen → (s.imem.read a).isSome = true
  /-- Register 0 reads zero (10_state.md R22). -/
  zero : s.reg 0 = 0
  /-- A RUNNING machine has no failure recorded (R32). -/
  running : s.run = .running → s.fail = none
  /-- A recorded failure is explained by the state it left (R210). -/
  failure : ∀ f, s.fail = some f → FailureExplained s f

/-! ## Words as the rules write them -/

/-- `base | rs<<21 | rt<<16 | rd<<11 | shamt<<6`, as the rules of the register-operation layout write a word. -/
def wordR (base : Word) (rs rt rd : RegIdx) (shamt : BitVec 5) : Word :=
  base ||| rs.setWidth 32 <<< 21 ||| rt.setWidth 32 <<< 16 ||| rd.setWidth 32 <<< 11
    ||| shamt.setWidth 32 <<< 6

/-- `base | rs<<21 | rt<<16 | imm16`, as the rules of the immediate-operation layout write a word. -/
def wordI (base : Word) (rs rt : RegIdx) (imm16 : BitVec 16) : Word :=
  base ||| rs.setWidth 32 <<< 21 ||| rt.setWidth 32 <<< 16 ||| imm16.setWidth 32

/-- `base | addr`, as the rules of the jump layout write a word. -/
def wordJ (base : Word) (addr : BitVec 26) : Word := base ||| addr.setWidth 32

/-- Under `ENC_DEFAULT` the classifier places `w` in family `f` and the decoder reads `i` from it. -/
def ReadsAs (w : Word) (f : Family) (i : Instr) : Prop :=
  classify Enc.default w = ⟨some f, true⟩ ∧ decode Enc.default w = .ok i

/-! ## Frames -/

/-- No cell of the buffer, PROG_LEN, the configuration or the step count changes (10_state.md R45; the loop,
not the instruction, counts the step). -/
structure BufferKept (s t : State) : Prop where
  imem : ∀ a, t.imem.read a = s.imem.read a
  cells : t.imem = s.imem
  progLen : t.progLen = s.progLen
  cfg : t.cfg = s.cfg
  steps : t.steps = s.steps

/-- The run state, the failure record and the output stream do not change. -/
structure StatusKept (s t : State) : Prop where
  run : t.run = s.run
  fail : t.fail = s.fail
  out : t.out = s.out

/-- Every general register keeps its value, but for register 0, which is cleared (R22). -/
def RegsKept (s t : State) : Prop := ∀ r, t.reg r = if r = 0 then 0 else s.reg r

/-- Register `d` holds `v`, or 0 where `d` is register 0, and nothing else changes but `pc`. -/
structure OnlyRegWritten (s t : State) (d : RegIdx) (v : Word) : Prop where
  regs : ∀ r, t.reg r = if r = 0 then 0 else if r = d then v else s.reg r
  hi : t.hi = s.hi
  lo : t.lo = s.lo
  status : StatusKept s t
  buffer : BufferKept s t

/-- `HI` and `LO` hold `h` and `l`, and nothing else changes but `pc`. -/
structure OnlyAccWritten (s t : State) (h l : Word) : Prop where
  regs : RegsKept s t
  hi : t.hi = h
  lo : t.lo = l
  status : StatusKept s t
  buffer : BufferKept s t

/-- Nothing changes but `pc`. -/
structure OnlyPcWritten (s t : State) : Prop where
  regs : RegsKept s t
  hi : t.hi = s.hi
  lo : t.lo = s.lo
  status : StatusKept s t
  buffer : BufferKept s t

/-- MalformedInstruction or ArithmeticFault was raised: `fail` is `f`, the machine is HALTED, and nothing
else changes, `pc` included (R210). -/
structure OnlyFailed (s t : State) (f : Failure) : Prop where
  regs : ∀ r, t.reg r = s.reg r
  hi : t.hi = s.hi
  lo : t.lo = s.lo
  pc : t.pc = s.pc
  run : t.run = .halted
  fail : t.fail = some f
  out : t.out = s.out
  buffer : BufferKept s t

end Sys2Proof.Machine
end

