-- ==== Sys2Proof/Certificates/Slice0/Obligations.lean ====
section
/-! DEFINITION. The statements for the provers, one `def Obligations.<Name> : Prop` each. Where a statement
names an instruction's encoding, it is the word the instruction's rule writes, under `ENC_DEFAULT`, with
every field the handler ignores at every value (30_encoding.md R89). -/

open Sys2Proof Sys2Proof.Machine

/-! ## Encoding, classifier and dispatch -/

/-- Decoder and classifier vectors of 95_test_vectors.md sections 2 and 3. -/
def Obligations.SampleWordsDecode : Prop :=
  ReadsAs 0x20080005 .immediate (.addi 8 0 5) ∧
  ReadsAs 0x01095020 .register (.add 10 8 9) ∧
  ReadsAs 0x0800001F .jump (.j 31) ∧
  ReadsAs 0x00000000 .register (.sll 0 0 0) ∧
  ReadsAs 0x8D09FFFC .immediate (.lw 9 0xFFFC 8) ∧
  ReadsAs 0x0109501C .pseudo (.mul 10 8 9) ∧
  ReadsAs 0x05010002 .immediate (.bgez 8 2) ∧
  ReadsAs 0x03FFFFCC .pseudo .syscall ∧
  ReadsAs 0x12345678 .immediate (.beq 17 20 0x5678) ∧
  decode Enc.default 0xFFFFFFFF = .error (.unmappedOp 0x3F) ∧
  decode Enc.default 0x70000002 = .error (.unmappedOp 0x1C)

/-- R78: re-encoding each view of a word gives the word, and decoding an encoded tuple gives the tuple. -/
def Obligations.FieldLayoutsRoundTrip : Prop :=
  (∀ w : Word,
    encodeR (decodeR w).op (decodeR w).rs (decodeR w).rt (decodeR w).rd (decodeR w).shamt
      (decodeR w).funct = w ∧
    encodeI (decodeI w).op (decodeI w).rs (decodeI w).rt ((decodeI w).imm.setWidth 16) = w ∧
    encodeJ (decodeJ w).op (decodeJ w).addr = w) ∧
  (∀ (op funct : BitVec 6) (rs rt rd : RegIdx) (shamt : BitVec 5),
    decodeR (encodeR op rs rt rd shamt funct) = ⟨op, rs, rt, rd, shamt, funct⟩) ∧
  (∀ (op : BitVec 6) (rs rt : RegIdx) (imm16 : BitVec 16),
    decodeI (encodeI op rs rt imm16) = ⟨op, rs, rt, imm16.signExtend 32⟩) ∧
  (∀ (op : BitVec 6) (addr : BitVec 26), decodeJ (encodeJ op addr) = ⟨op, addr⟩)

/-- Decode and encode agree for every well-formed instruction, at every operand, under every well-formed
opcode assignment whose PSEUDO and REGISTER function codes are disjoint (R78, R93, R94). That an assignment
may have other sub-keys than 0 and 1 is the model's choice (log entry 17). -/
def Obligations.DecodeOfEncodeIsTheInstruction : Prop :=
  ∀ e : Enc, e.wf = true → e.functsDisjoint = true →
    ∀ i : Instr, i.wellFormed = true → decode e (encode e i) = .ok i

/-- R88's last sentence, for every well-formed opcode assignment: `dispatch(w)` is valid exactly when
`classify(w)` is valid, and then names a mnemonic of the family `classify(w)` returns. That an assignment
may have other sub-keys than 0 and 1 is the model's choice (log entry 17). -/
def Obligations.DispatchAgreesWithClassifier : Prop :=
  ∀ e : Enc, e.wf = true → ∀ w : Word,
    (dispatch e w).isSome = (classify e w).valid ∧
    ∀ m, dispatch e w = some m → (classify e w).family = some m.family

/-- R88, the rows of `ENC_DEFAULT`: the masks, the answer is the row the word matches, a word that matches
no row has no answer, no two rows match the same word, and the answer agrees with the classifier's. -/
def Obligations.RowsMatchByMask : Prop :=
  (∀ m : Mnemonic, Enc.default.mask m =
    if m.family = .register ∨ m.family = .pseudo then 0xFC00003F
    else if m.family = .jump then 0xFFFFFFE0
    else if m = .bltz ∨ m = .bgez then 0xFC1F0000 else 0xFC000000) ∧
  (∀ (w : Word) (m : Mnemonic),
    dispatch Enc.default w = some m ↔ w &&& Enc.default.mask m = Enc.default.pattern m) ∧
  (∀ (w : Word) (m m' : Mnemonic), w &&& Enc.default.mask m = Enc.default.pattern m →
    w &&& Enc.default.mask m' = Enc.default.pattern m' → m = m') ∧
  (∀ w : Word, (dispatch Enc.default w).isSome = (classify Enc.default w).valid ∧
    ∀ m, dispatch Enc.default w = some m → (classify Enc.default w).family = some m.family)

/-- R82: PSEUDO is tested before REGISTER, whatever the opcode assignment, so a REGISTER mnemonic whose
function code is a PSEUDO one is unreachable; under `ENC_DEFAULT` the two sets are disjoint. -/
def Obligations.PseudoIsTestedFirst : Prop :=
  (∀ (e : Enc) (w : Word), opField w = 0 → (functField w = e.mul ∨ functField w = e.syscall) →
    classify e w = ⟨some .pseudo, true⟩ ∧
    (dispatch e w = some .mul ∨ dispatch e w = some .syscall)) ∧
  (∀ (e : Enc) (m : Mnemonic), m.family = .register → (e.funct m = e.mul ∨ e.funct m = e.syscall) →
    ∀ w : Word, dispatch e w ≠ some m) ∧
  Enc.default.functsDisjoint = true

/-- R97: the malformed words under `ENC_DEFAULT` are exactly those of (a) to (d), and executing one raises
MalformedInstruction. -/
def Obligations.MalformedWordsExactly : Prop :=
  (∀ w : Word, (∃ r, decode Enc.default w = .error r) ↔
    (opField w = 0 ∧ functField w ∈
      ([0x01, 0x05, 0x0A, 0x0B, 0x0E, 0x0F, 0x14, 0x15, 0x16, 0x17, 0x1D, 0x1E, 0x1F, 0x28, 0x29, 0x2C,
        0x2D, 0x2E, 0x2F, 0x30, 0x31, 0x32, 0x33, 0x34, 0x35, 0x36, 0x37, 0x38, 0x39, 0x3A, 0x3B, 0x3C,
        0x3D, 0x3E, 0x3F] : List (BitVec 6))) ∨
    (opField w ∈
      ([0x10, 0x11, 0x12, 0x13, 0x14, 0x15, 0x16, 0x17, 0x18, 0x19, 0x1A, 0x1B, 0x1C, 0x1D, 0x1E, 0x1F,
        0x22, 0x24, 0x25, 0x26, 0x27, 0x2A, 0x2C, 0x2D, 0x2E, 0x2F, 0x30, 0x31, 0x32, 0x33, 0x34, 0x35,
        0x36, 0x37, 0x38, 0x39, 0x3A, 0x3B, 0x3C, 0x3D, 0x3E, 0x3F] : List (BitVec 6))) ∨
    (opField w = 0x01 ∧ 2 ≤ (rtField w).toNat) ∨
    ((opField w = 0x02 ∨ opField w = 0x03) ∧ w.extractLsb' 5 21 ≠ 0)) ∧
  (∀ (s : State) (w : Word), s.cfg.wf = true → s.progLen ≤ s.cfg.imemCapacity → s.run = .running →
    s.pc.toNat < s.progLen → s.pc.toNat < s.cfg.haltPc.toNat → s.imem.read s.pc.toNat = some w →
    s.cfg.enc = Enc.default → (∃ r, decode Enc.default w = .error r) →
    ∃ t, step s = .next t ∧ t.fail = some (.malformedInstruction w s.pc) ∧ t.run = .halted)

/-! ## The Execution Loop -/

/-- A step in range runs the instruction the decoder reads from the word at `pc`, on the state with the
step counted (R240, R243). -/
def Obligations.StepRunsTheDecodedInstruction : Prop :=
  ∀ (s : State) (w : Word) (i : Instr),
    s.cfg.wf = true → s.progLen ≤ s.cfg.imemCapacity → s.run = .running →
    s.pc.toNat < s.progLen → s.pc.toNat < s.cfg.haltPc.toNat →
    s.imem.read s.pc.toNat = some w → decode s.cfg.enc w = .ok i →
    step s = exec i { s with steps := s.steps + 1 }

/-- R241: a `pc` out of range halts the machine and changes nothing else. -/
def Obligations.OutOfRangePcHaltsNormally : Prop :=
  ∀ s : State, s.cfg.wf = true → s.progLen ≤ s.cfg.imemCapacity → s.run = .running →
    (s.progLen ≤ s.pc.toNat ∨ s.cfg.haltPc.toNat ≤ s.pc.toNat) →
    step s = .next { s with run := .halted }

/-- Derived from R207, over every opcode assignment: a word the classifier finds no valid family for fails
the run when it is fetched: the record holds the word and its index, and nothing else changes but the run
state and the step count. R207 names only an `rt` above 1 under the shared `bltz`/`bgez` primary field; that an
assignment with other sub-keys than 0 and 1 makes other `rt` values malformed is the model's choice (log entry
17). -/
def Obligations.MalformedWordFailsTheRun : Prop :=
  ∀ (s : State) (w : Word),
    s.cfg.wf = true → s.progLen ≤ s.cfg.imemCapacity → s.run = .running →
    s.pc.toNat < s.progLen → s.pc.toNat < s.cfg.haltPc.toNat →
    s.imem.read s.pc.toNat = some w → (classify s.cfg.enc w).valid = false →
    ∃ t, step s = .next t ∧
      OnlyFailed { s with steps := s.steps + 1 } t (.malformedInstruction w s.pc)

/-- No step exists from a HALTED state (R240, R213): none answers a next state, and the model's step stops
with its fault `halted`. -/
def Obligations.HaltedMachineHasNoStep : Prop :=
  ∀ s : State, s.run = .halted →
    (∀ t, step s ≠ .next t) ∧
    (s.cfg.wf = true → s.progLen ≤ s.cfg.imemCapacity → step s = .fault .halted)

/-- R235: the state after reset. -/
def Obligations.ResetStateIsZero : Prop :=
  (∀ r, State.reset.reg r = 0) ∧ State.reset.hi = 0 ∧ State.reset.lo = 0 ∧ State.reset.pc = 0 ∧
  State.reset.run = .running ∧ State.reset.fail = none ∧ State.reset.out = [] ∧ State.reset.steps = 0

/-- R236: execution starts at index 0 of the loaded buffer, and with no program the first step halts at once
with every register zero. For every configuration within R7. -/
def Obligations.FirstStepAfterReset : Prop :=
  ∀ c : Config, c.wf = true →
    (∃ t, step { State.reset with cfg := c } = .next t ∧ t.run = .halted ∧ t.fail = none ∧
      t.pc = 0 ∧ t.steps = 0 ∧ ∀ r, t.reg r = 0) ∧
    (∀ (w : Word) (ws : List Word) (i : Instr), decode c.enc w = .ok i →
      step (State.load { State.reset with cfg := c } (w :: ws)) =
        exec i { State.load { State.reset with cfg := c } (w :: ws) with steps := 1 })

/-- Word `k` of the sequence becomes `imem[k]`, PROG_LEN the number of words loaded, and the load changes
nothing else (R238). Two clauses are the model's choice: that the cells at and above PROG_LEN hold no word (log
entry 6; R40 and R57 leave them unspecified), and that the load itself cuts a longer sequence to the buffer's
capacity (log entry 15; R238 gives the cutting to the collaborator). -/
def Obligations.LoadFillsTheBuffer : Prop :=
  ∀ (s : State) (ws : List Word),
    (s.load ws).progLen = min s.cfg.imemCapacity ws.length ∧
    (∀ k, (s.load ws).imem.read k = if k < s.cfg.imemCapacity then ws[k]? else none) ∧
    (s.load ws).imem.wf ∧
    { s.load ws with imem := s.imem, progLen := s.progLen } = s

/-! ## Whole-machine rules -/

/-- The invariant is kept by every step, from every state that meets it. -/
def Obligations.EveryStepKeepsTheInvariant : Prop :=
  ∀ s t : State, s.Inv → step s = .next t → t.Inv

/-- The reset state meets the invariant (with the model's default configuration, log entry 2). -/
def Obligations.ResetMeetsTheInvariant : Prop := State.reset.Inv

/-- A load into the reset state meets the invariant, for every configuration within R7 and every program. That
the load cuts a program longer than the buffer is the model's choice (log entry 15). -/
def Obligations.LoadedResetMeetsTheInvariant : Prop :=
  ∀ (c : Config) (ws : List Word), c.wf = true →
    (State.load { State.reset with cfg := c } ws).Inv

/-- A RUNNING machine that meets the invariant always has a step: the loop never stops for another reason
than HALTED. -/
def Obligations.RunningMachineAlwaysSteps : Prop :=
  ∀ s : State, s.Inv → s.run = .running → ∃ t, step s = .next t

/-- R45: what one step may change, from a state whose register 0 reads zero. -/
def Obligations.OneStepChangesAtMost : Prop :=
  ∀ s : State, s.reg 0 = 0 →
    (∀ t, step s = .next t →
      s.run = .running ∧
      (((s.progLen ≤ s.pc.toNat ∨ s.cfg.haltPc.toNat ≤ s.pc.toNat) ∧ t = { s with run := .halted }) ∨
        ((s.pc.toNat < s.progLen ∧ s.pc.toNat < s.cfg.haltPc.toNat) ∧
          t.reg 0 = 0 ∧ (∃ d, ∀ r, r ≠ d → t.reg r = s.reg r) ∧
          (t.out = s.out ∨ ∃ e, t.out = s.out ++ [e]) ∧ t.steps = s.steps + 1)) ∧
      t.imem = s.imem ∧ t.progLen = s.progLen ∧ t.cfg = s.cfg) ∧
    (s.run = .halted → ∀ t, step s ≠ .next t)

/-- Register 0 reads zero after every handler that completes, whatever the handler wrote and whatever the
cell held; a handler that raised a failure before any write left every register alone (R22, R244). -/
def Obligations.RegisterZeroClearedAfterEveryHandler : Prop :=
  ∀ (i : Instr) (s : State), ∃ t, exec i s = .next t ∧
    (t.reg 0 = 0 ∨ ∃ f, OnlyFailed s t f)

/-- R206: an instruction ends a RUNNING machine's run exactly when it is a division by zero or the one that
overflows, a `syscall` with an unknown service, or (the model's choice, log entry 10) a jump whose `addr`
exceeds 31, a term the decoder never gives. -/
def Obligations.OnlyTheseInstructionsFail : Prop :=
  ∀ (i : Instr) (s : State), s.run = .running → ∃ t, exec i s = .next t ∧
    (t.run = .halted ↔
      ((∃ rs rt, (i = .div rs rt ∨ i = .divu rs rt) ∧
          (s.reg rt = 0 ∨ (s.reg rs = 0x80000000 ∧ s.reg rt = 0xFFFFFFFF))) ∨
        (i = .syscall ∧ s.reg s.cfg.syscallNumReg ∉ ([1, 10, 11] : List Word)) ∨
        (∃ addr : BitVec 26, (i = .j addr ∨ i = .jal addr) ∧ 31 < addr.toNat)))

/-- R33: the output stream is only appended to, at most one event an instruction, and only by `syscall`. -/
def Obligations.OnlySyscallAppendsEvents : Prop :=
  ∀ (i : Instr) (s : State), ∃ t, exec i s = .next t ∧
    (t.out = s.out ∨ (i = .syscall ∧ ∃ e, t.out = s.out ++ [e]))

/-- R26: which instructions write `HI` and `LO`, and that no instruction but `mfhi` and `mflo` lets their old
values reach a register, `pc` or the output (`mul` reads the `LO` it has written). -/
def Obligations.OnlyTheseTouchHiAndLo : Prop :=
  ∀ (i : Instr) (s : State), ∃ t, exec i s = .next t ∧
    (t.hi ≠ s.hi → i.mnemonic ∈ [.mult, .multu, .div, .divu, .mul, .mthi]) ∧
    (t.lo ≠ s.lo → i.mnemonic ∈ [.mult, .multu, .div, .divu, .mul, .mtlo]) ∧
    (i.mnemonic ∉ [.mfhi, .mflo] → ∀ h l, ∃ t', exec i { s with hi := h, lo := l } = .next t' ∧
      (∀ r, t'.reg r = t.reg r) ∧ t'.pc = t.pc ∧ t'.out = t.out ∧ t'.fail = t.fail)

/-- R29's first row: every instruction but the branches, jumps, `break` and `syscall` is followed by
`pc + 1`, or raises ArithmeticFault and leaves `pc`. -/
def Obligations.PcAdvancesByOneElsewhere : Prop :=
  ∀ (i : Instr) (s : State),
    i.mnemonic ∉ [.beq, .bne, .bgez, .bgtz, .blez, .bltz, .j, .jal, .jr, .jalr, .brk, .syscall] →
    ∃ t, exec i s = .next t ∧
      (t.pc = s.pc + 1 ∨ (i.mnemonic ∈ [.div, .divu] ∧ ∃ c, OnlyFailed s t (.arithmeticFault c s.pc)))

/-- R57: the cells at and above PROG_LEN are unobservable: a step does not depend on them. -/
def Obligations.UnloadedCellsAreUnobservable : Prop :=
  ∀ (s : State) (m : Memory), (∀ a, a < s.progLen → m.read a = s.imem.read a) →
    step { s with imem := m } =
      match step s with
      | .next t => .next { t with imem := m }
      | .fault f => .fault f
      | .refused r => .refused r

/-- R37: `run`, `fail`, `out` and `steps` are readable by no instruction: the registers, the accumulators
and `pc` an instruction leaves do not depend on them. -/
def Obligations.HostCellsAreUnreadable : Prop :=
  ∀ (i : Instr) (s : State) (run : RunState) (fail : Option Failure) (out : List OutEvent) (steps : Nat),
    ∃ t t', exec i s = .next t ∧
      exec i { s with run := run, fail := fail, out := out, steps := steps } = .next t' ∧
      (∀ r, t'.reg r = t.reg r) ∧ t'.hi = t.hi ∧ t'.lo = t.lo ∧ t'.pc = t.pc

/-- R246: with STEP_LIMIT `n` a run from a state that meets the invariant ends, HALTED with at most `n` steps
or OutOfSteps, which is RUNNING with exactly `n` steps and no failure. -/
def Obligations.RunHonoursTheStepLimit : Prop :=
  ∀ (s : State) (n fuel : Nat), s.Inv → s.cfg.stepLimit = some n → s.steps ≤ n → n - s.steps ≤ fuel →
    (∃ t, runToHalt fuel s = .halted t ∧ t.run = .halted ∧ t.steps ≤ n) ∨
    (∃ t, runToHalt fuel s = .outOfSteps t ∧ t.run = .running ∧ t.steps = n ∧ t.fail = none)

/-! ## Arithmetic, logic, comparison, load-upper -/

/-- R111, R112: `add` and `addu` write the sum modulo 2^32. -/
def Obligations.AddWritesTheWrappedSum : Prop :=
  ∀ (s : State) (rd rs rt : RegIdx) (shamt : BitVec 5),
    ReadsAs (wordR 0x00000020 rs rt rd shamt) .register (.add rd rs rt) ∧
    ReadsAs (wordR 0x00000021 rs rt rd shamt) .register (.addu rd rs rt) ∧
    ∀ i : Instr, i = .add rd rs rt ∨ i = .addu rd rs rt → ∃ t, exec i s = .next t ∧ t.pc = s.pc + 1 ∧
      OnlyRegWritten s t rd (BitVec.ofNat 32 ((s.reg rs).toNat + (s.reg rt).toNat))

/-- R113, R114: `addi` and `addiu` add the sign-extended immediate modulo 2^32. -/
def Obligations.AddImmediateWritesTheWrappedSum : Prop :=
  ∀ (s : State) (rt rs : RegIdx) (imm16 : BitVec 16),
    ReadsAs (wordI 0x20000000 rs rt imm16) .immediate (.addi rt rs imm16) ∧
    ReadsAs (wordI 0x24000000 rs rt imm16) .immediate (.addiu rt rs imm16) ∧
    ∀ i : Instr, i = .addi rt rs imm16 ∨ i = .addiu rt rs imm16 →
      ∃ t, exec i s = .next t ∧ t.pc = s.pc + 1 ∧
        OnlyRegWritten s t rt (BitVec.ofInt 32 ((s.reg rs).toInt + imm16.toInt))

/-- R122, R123: `sub` and `subu` write the difference modulo 2^32. -/
def Obligations.SubWritesTheWrappedDifference : Prop :=
  ∀ (s : State) (rd rs rt : RegIdx) (shamt : BitVec 5),
    ReadsAs (wordR 0x00000022 rs rt rd shamt) .register (.sub rd rs rt) ∧
    ReadsAs (wordR 0x00000023 rs rt rd shamt) .register (.subu rd rs rt) ∧
    ∀ i : Instr, i = .sub rd rs rt ∨ i = .subu rd rs rt → ∃ t, exec i s = .next t ∧ t.pc = s.pc + 1 ∧
      OnlyRegWritten s t rd (BitVec.ofInt 32 ((s.reg rs).toNat - (s.reg rt).toNat))

/-- R115, R117, R119, R120: `and`, `or`, `nor` and `xor`, bit by bit. -/
def Obligations.LogicWritesEveryBit : Prop :=
  ∀ (s : State) (rd rs rt : RegIdx) (shamt : BitVec 5),
    ReadsAs (wordR 0x00000024 rs rt rd shamt) .register (.and rd rs rt) ∧
    ReadsAs (wordR 0x00000025 rs rt rd shamt) .register (.or rd rs rt) ∧
    ReadsAs (wordR 0x00000027 rs rt rd shamt) .register (.nor rd rs rt) ∧
    ReadsAs (wordR 0x00000026 rs rt rd shamt) .register (.xor rd rs rt) ∧
    ∀ (i : Instr) (f : Bool → Bool → Bool),
      (i = .and rd rs rt ∧ f = fun a b => a && b) ∨ (i = .or rd rs rt ∧ f = fun a b => a || b) ∨
      (i = .nor rd rs rt ∧ f = fun a b => !(a || b)) ∨ (i = .xor rd rs rt ∧ f = fun a b => a ^^ b) →
      ∃ t v, exec i s = .next t ∧ t.pc = s.pc + 1 ∧ OnlyRegWritten s t rd v ∧
        ∀ k, k < 32 → v.getLsbD k = f ((s.reg rs).getLsbD k) ((s.reg rt).getLsbD k)

/-- R116, R118, R121: `andi`, `ori` and `xori` with the zero-extended immediate, bit by bit. -/
def Obligations.LogicImmediateWritesEveryBit : Prop :=
  ∀ (s : State) (rt rs : RegIdx) (imm16 : BitVec 16),
    ReadsAs (wordI 0x30000000 rs rt imm16) .immediate (.andi rt rs imm16) ∧
    ReadsAs (wordI 0x34000000 rs rt imm16) .immediate (.ori rt rs imm16) ∧
    ReadsAs (wordI 0x38000000 rs rt imm16) .immediate (.xori rt rs imm16) ∧
    ∀ (i : Instr) (f : Bool → Bool → Bool),
      (i = .andi rt rs imm16 ∧ f = fun a b => a && b) ∨ (i = .ori rt rs imm16 ∧ f = fun a b => a || b) ∨
      (i = .xori rt rs imm16 ∧ f = fun a b => a ^^ b) →
      ∃ t v, exec i s = .next t ∧ t.pc = s.pc + 1 ∧ OnlyRegWritten s t rt v ∧
        ∀ k, k < 32 → v.getLsbD k = f ((s.reg rs).getLsbD k) (k < 16 && imm16.getLsbD k)

/-- R124, R125: `slt` and `sltu` write 1 where the first source is less, read as signed, else 0. -/
def Obligations.SetOnLessThanIsSigned : Prop :=
  ∀ (s : State) (rd rs rt : RegIdx) (shamt : BitVec 5),
    ReadsAs (wordR 0x0000002A rs rt rd shamt) .register (.slt rd rs rt) ∧
    ReadsAs (wordR 0x0000002B rs rt rd shamt) .register (.sltu rd rs rt) ∧
    ∀ i : Instr, i = .slt rd rs rt ∨ i = .sltu rd rs rt → ∃ t, exec i s = .next t ∧ t.pc = s.pc + 1 ∧
      OnlyRegWritten s t rd (if (s.reg rs).toInt < (s.reg rt).toInt then 1 else 0)

/-- R126, R127: `slti` and `sltiu` compare with the sign-extended immediate, both read as signed. -/
def Obligations.SetOnLessThanImmediateIsSigned : Prop :=
  ∀ (s : State) (rt rs : RegIdx) (imm16 : BitVec 16),
    ReadsAs (wordI 0x28000000 rs rt imm16) .immediate (.slti rt rs imm16) ∧
    ReadsAs (wordI 0x2C000000 rs rt imm16) .immediate (.sltiu rt rs imm16) ∧
    ∀ i : Instr, i = .slti rt rs imm16 ∨ i = .sltiu rt rs imm16 →
      ∃ t, exec i s = .next t ∧ t.pc = s.pc + 1 ∧
        OnlyRegWritten s t rt (if (s.reg rs).toInt < imm16.toInt then 1 else 0)

/-- R128: `lui` writes the immediate in the upper half and zeros below; the `rs` field is ignored. -/
def Obligations.LuiWritesTheUpperHalf : Prop :=
  ∀ (s : State) (rs rt : RegIdx) (imm16 : BitVec 16),
    ReadsAs (wordI 0x3C000000 rs rt imm16) .immediate (.lui rt imm16) ∧
    ∃ t, exec (.lui rt imm16) s = .next t ∧ t.pc = s.pc + 1 ∧
      OnlyRegWritten s t rt (BitVec.ofNat 32 (imm16.toNat * 65536))

/-- R131: `add` is commutative and `sub(a,b) = -sub(b,a)`, for every pair of register values. -/
def Obligations.AddCommutesAndSubNegates : Prop :=
  ∀ (s : State) (rd rs rt : RegIdx),
    (∃ t, exec (.add rd rs rt) s = .next t ∧ exec (.add rd rt rs) s = .next t) ∧
    (∃ t t', exec (.sub rd rs rt) s = .next t ∧ exec (.sub rd rt rs) s = .next t' ∧
      t.reg rd = -t'.reg rd)

/-! ## Shifts -/

/-- R141, R143, R145: the constant shifts. `srl` reads `x[rs]`. -/
def Obligations.ConstantShiftsWriteTheShiftedSource : Prop :=
  ∀ (s : State) (rd rs rt : RegIdx) (shamt : BitVec 5),
    (ReadsAs (wordR 0x00000000 rs rt rd shamt) .register (.sll rd rt shamt) ∧
      ∃ t, exec (.sll rd rt shamt) s = .next t ∧ t.pc = s.pc + 1 ∧
        OnlyRegWritten s t rd (BitVec.ofNat 32 ((s.reg rt).toNat * 2 ^ shamt.toNat))) ∧
    (ReadsAs (wordR 0x00000002 rs rt rd shamt) .register (.srl rd rs shamt) ∧
      ∃ t, exec (.srl rd rs shamt) s = .next t ∧ t.pc = s.pc + 1 ∧
        OnlyRegWritten s t rd (BitVec.ofNat 32 ((s.reg rs).toNat / 2 ^ shamt.toNat))) ∧
    (ReadsAs (wordR 0x00000003 rs rt rd shamt) .register (.sra rd rt shamt) ∧
      ∃ t, exec (.sra rd rt shamt) s = .next t ∧ t.pc = s.pc + 1 ∧
        OnlyRegWritten s t rd (BitVec.ofInt 32 ((s.reg rt).toInt / 2 ^ shamt.toNat)))

/-- R142, R144, R146: the variable shifts, by the low five bits of `x[rs]`. -/
def Obligations.VariableShiftsUseFiveBits : Prop :=
  ∀ (s : State) (rd rs rt : RegIdx) (shamt : BitVec 5),
    (ReadsAs (wordR 0x00000004 rs rt rd shamt) .register (.sllv rd rt rs) ∧
      ∃ t, exec (.sllv rd rt rs) s = .next t ∧ t.pc = s.pc + 1 ∧
        OnlyRegWritten s t rd (BitVec.ofNat 32 ((s.reg rt).toNat * 2 ^ ((s.reg rs).toNat % 32)))) ∧
    (ReadsAs (wordR 0x00000006 rs rt rd shamt) .register (.srlv rd rt rs) ∧
      ∃ t, exec (.srlv rd rt rs) s = .next t ∧ t.pc = s.pc + 1 ∧
        OnlyRegWritten s t rd (BitVec.ofNat 32 ((s.reg rt).toNat / 2 ^ ((s.reg rs).toNat % 32)))) ∧
    (ReadsAs (wordR 0x00000007 rs rt rd shamt) .register (.srav rd rt rs) ∧
      ∃ t, exec (.srav rd rt rs) s = .next t ∧ t.pc = s.pc + 1 ∧
        OnlyRegWritten s t rd (BitVec.ofInt 32 ((s.reg rt).toInt / 2 ^ ((s.reg rs).toNat % 32))))

/-- R147: the shift laws. -/
def Obligations.ShiftLaws : Prop :=
  ∀ (v : Word) (n : BitVec 5),
    (∀ k, k < n.toNat → (shiftLeft v n).getLsbD k = false) ∧
    (∀ k, 32 - n.toNat ≤ k → (shiftRightU v n).getLsbD k = false) ∧
    (∀ k, 31 - n.toNat ≤ k → k < 32 → (shiftRightS v n).getLsbD k = v.getLsbD 31) ∧
    (∀ k, (shiftRightU (shiftLeft v n) n).getLsbD k = (decide (k < 32 - n.toNat) && v.getLsbD k)) ∧
    shiftRightU v 0 = v ∧ shiftRightS v 0 = v ∧ shiftLeft v 0 = v

/-! ## Multiply, divide, accumulator moves -/

/-- R151, R152: `mult` and `multu` put the low 32 bits of the product in both accumulators. -/
def Obligations.MultWritesBothAccumulators : Prop :=
  ∀ (s : State) (rs rt rd : RegIdx) (shamt : BitVec 5),
    ReadsAs (wordR 0x00000018 rs rt rd shamt) .register (.mult rs rt) ∧
    ReadsAs (wordR 0x00000019 rs rt rd shamt) .register (.multu rs rt) ∧
    ∀ i : Instr, i = .mult rs rt ∨ i = .multu rs rt → ∃ t, exec i s = .next t ∧ t.pc = s.pc + 1 ∧
      OnlyAccWritten s t (BitVec.ofNat 32 ((s.reg rs).toNat * (s.reg rt).toNat))
        (BitVec.ofNat 32 ((s.reg rs).toNat * (s.reg rt).toNat))

/-- R153, R154: `div` and `divu`, both signed: the quotient rounded toward zero in `LO` and the remainder in
`HI`, or one of the two failures, which leave every register and `pc` alone. -/
def Obligations.DivideOrFail : Prop :=
  ∀ (s : State) (rs rt rd : RegIdx) (shamt : BitVec 5),
    ReadsAs (wordR 0x0000001A rs rt rd shamt) .register (.div rs rt) ∧
    ReadsAs (wordR 0x0000001B rs rt rd shamt) .register (.divu rs rt) ∧
    ∀ i : Instr, i = .div rs rt ∨ i = .divu rs rt →
      (s.reg rt ≠ 0 → ¬(s.reg rs = 0x80000000 ∧ s.reg rt = 0xFFFFFFFF) →
        ∃ t, exec i s = .next t ∧ t.pc = s.pc + 1 ∧
          OnlyAccWritten s t (BitVec.ofInt 32 ((s.reg rs).toInt.tmod (s.reg rt).toInt))
            (BitVec.ofInt 32 ((s.reg rs).toInt.tdiv (s.reg rt).toInt))) ∧
      (s.reg rt = 0 →
        ∃ t, exec i s = .next t ∧ OnlyFailed s t (.arithmeticFault .divisionByZero s.pc)) ∧
      (s.reg rs = 0x80000000 → s.reg rt = 0xFFFFFFFF →
        ∃ t, exec i s = .next t ∧ OnlyFailed s t (.arithmeticFault .divisionOverflow s.pc))

/-- R161's law: in every division that does not fail, `a = q * b + r` over the integers, `|r| < |b|`, and `r`
is zero or has the sign of `a`. -/
def Obligations.DivisionLaw : Prop :=
  ∀ (s : State) (rs rt : RegIdx) (i : Instr), i = .div rs rt ∨ i = .divu rs rt →
    s.reg rt ≠ 0 → ¬(s.reg rs = 0x80000000 ∧ s.reg rt = 0xFFFFFFFF) →
    ∃ t, exec i s = .next t ∧
      (s.reg rs).toInt = t.lo.toInt * (s.reg rt).toInt + t.hi.toInt ∧
      t.hi.toInt.natAbs < (s.reg rt).toInt.natAbs ∧
      (t.hi.toInt = 0 ∨ (0 < t.hi.toInt ∧ 0 < (s.reg rs).toInt) ∨ (t.hi.toInt < 0 ∧ (s.reg rs).toInt < 0))

/-- R155, R156: `mfhi` and `mflo`. -/
def Obligations.MoveFromAccumulator : Prop :=
  ∀ (s : State) (rd rs rt : RegIdx) (shamt : BitVec 5),
    (ReadsAs (wordR 0x00000010 rs rt rd shamt) .register (.mfhi rd) ∧
      ∃ t, exec (.mfhi rd) s = .next t ∧ t.pc = s.pc + 1 ∧ OnlyRegWritten s t rd s.hi) ∧
    (ReadsAs (wordR 0x00000012 rs rt rd shamt) .register (.mflo rd) ∧
      ∃ t, exec (.mflo rd) s = .next t ∧ t.pc = s.pc + 1 ∧ OnlyRegWritten s t rd s.lo)

/-- R157, R158: `mthi` and `mtlo` read the register the `rd` field names. -/
def Obligations.MoveToAccumulator : Prop :=
  ∀ (s : State) (rd rs rt : RegIdx) (shamt : BitVec 5),
    (ReadsAs (wordR 0x00000011 rs rt rd shamt) .register (.mthi rd) ∧
      ∃ t, exec (.mthi rd) s = .next t ∧ t.pc = s.pc + 1 ∧ OnlyAccWritten s t (s.reg rd) s.lo) ∧
    (ReadsAs (wordR 0x00000013 rs rt rd shamt) .register (.mtlo rd) ∧
      ∃ t, exec (.mtlo rd) s = .next t ∧ t.pc = s.pc + 1 ∧ OnlyAccWritten s t s.hi (s.reg rd))

/-- R159: `mul` writes the low word of the product to `x[rd]`, `HI` and `LO`. -/
def Obligations.MulWritesRegisterAndAccumulators : Prop :=
  ∀ (s : State) (rd rs rt : RegIdx) (shamt : BitVec 5),
    ReadsAs (wordR 0x0000001C rs rt rd shamt) .pseudo (.mul rd rs rt) ∧
    ∀ p : Word, p = BitVec.ofNat 32 ((s.reg rs).toNat * (s.reg rt).toNat) →
      ∃ t, exec (.mul rd rs rt) s = .next t ∧ t.pc = s.pc + 1 ∧
        (∀ r, t.reg r = if r = 0 then 0 else if r = rd then p else s.reg r) ∧
        t.hi = p ∧ t.lo = p ∧ StatusKept s t ∧ BufferKept s t

/-- R160: the multiplication law: the value written, its three special cases, and `mult` then `mflo` giving
what `mul` gives. -/
def Obligations.MultiplicationLaw : Prop :=
  ∀ (s : State) (rd rs rt : RegIdx), ∃ t u v,
    exec (.mult rs rt) s = .next t ∧ exec (.mflo rd) t = .next u ∧ exec (.mul rd rs rt) s = .next v ∧
    exec (.multu rs rt) s = .next t ∧
    u.reg rd = v.reg rd ∧ u.hi = u.lo ∧ v.hi = v.lo ∧ v.lo = t.lo ∧
    t.lo.toNat = (s.reg rs).toNat * (s.reg rt).toNat % 2 ^ 32 ∧
    (t.lo.toNat : Int) = (s.reg rs).toInt * (s.reg rt).toInt % 2 ^ 32 ∧
    (s.reg rt = 0 → t.lo = 0) ∧ (s.reg rt = 1 → t.lo = s.reg rs) ∧
    (s.reg rt = 0xFFFFFFFF → t.lo = -s.reg rs)

/-! ## Loads and stores -/

/-- R166 to R168: `lb`, `lh` and `lw` copy all of `x[rs]` to `x[rt]` whatever the immediate. -/
def Obligations.LoadsCopyTheWholeRegister : Prop :=
  ∀ (s : State) (rt rs : RegIdx) (imm16 : BitVec 16),
    ReadsAs (wordI 0x80000000 rs rt imm16) .immediate (.lb rt imm16 rs) ∧
    ReadsAs (wordI 0x84000000 rs rt imm16) .immediate (.lh rt imm16 rs) ∧
    ReadsAs (wordI 0x8C000000 rs rt imm16) .immediate (.lw rt imm16 rs) ∧
    ∀ i : Instr, i = .lb rt imm16 rs ∨ i = .lh rt imm16 rs ∨ i = .lw rt imm16 rs →
      ∃ t, exec i s = .next t ∧ t.pc = s.pc + 1 ∧ OnlyRegWritten s t rt (s.reg rs)

/-- R169 to R171: `sb`, `sh` and `sw` copy all of `x[rt]` to `x[rs]` whatever the immediate. -/
def Obligations.StoresCopyTheWholeRegister : Prop :=
  ∀ (s : State) (rt rs : RegIdx) (imm16 : BitVec 16),
    ReadsAs (wordI 0xA0000000 rs rt imm16) .immediate (.sb rt imm16 rs) ∧
    ReadsAs (wordI 0xA4000000 rs rt imm16) .immediate (.sh rt imm16 rs) ∧
    ReadsAs (wordI 0xAC000000 rs rt imm16) .immediate (.sw rt imm16 rs) ∧
    ∀ i : Instr, i = .sb rt imm16 rs ∨ i = .sh rt imm16 rs ∨ i = .sw rt imm16 rs →
      ∃ t, exec i s = .next t ∧ t.pc = s.pc + 1 ∧ OnlyRegWritten s t rs (s.reg rt)

/-! ## Control transfer -/

/-- R176, R177: `beq` and `bne` go to `pc + imm`, relative to the branch itself, or to `pc + 1`. -/
def Obligations.EqualityBranches : Prop :=
  ∀ (s : State) (rs rt : RegIdx) (imm16 : BitVec 16),
    (ReadsAs (wordI 0x10000000 rs rt imm16) .immediate (.beq rs rt imm16) ∧
      ∃ t, exec (.beq rs rt imm16) s = .next t ∧ OnlyPcWritten s t ∧
        t.pc = if s.reg rs = s.reg rt then BitVec.ofInt 32 (s.pc.toNat + imm16.toInt) else s.pc + 1) ∧
    (ReadsAs (wordI 0x14000000 rs rt imm16) .immediate (.bne rs rt imm16) ∧
      ∃ t, exec (.bne rs rt imm16) s = .next t ∧ OnlyPcWritten s t ∧
        t.pc = if s.reg rs ≠ s.reg rt then BitVec.ofInt 32 (s.pc.toNat + imm16.toInt) else s.pc + 1)

/-- R178 to R181: the four branches on the sign of `x[rs]`; `bgtz` and `blez` ignore the `rt` field. -/
def Obligations.SignBranches : Prop :=
  ∀ (s : State) (rs rt : RegIdx) (imm16 : BitVec 16),
    (ReadsAs (wordI 0x04010000 rs 0 imm16) .immediate (.bgez rs imm16) ∧
      ∃ t, exec (.bgez rs imm16) s = .next t ∧ OnlyPcWritten s t ∧
        t.pc = if 0 ≤ (s.reg rs).toInt then BitVec.ofInt 32 (s.pc.toNat + imm16.toInt) else s.pc + 1) ∧
    (ReadsAs (wordI 0x1C000000 rs rt imm16) .immediate (.bgtz rs imm16) ∧
      ∃ t, exec (.bgtz rs imm16) s = .next t ∧ OnlyPcWritten s t ∧
        t.pc = if 0 < (s.reg rs).toInt then BitVec.ofInt 32 (s.pc.toNat + imm16.toInt) else s.pc + 1) ∧
    (ReadsAs (wordI 0x18000000 rs rt imm16) .immediate (.blez rs imm16) ∧
      ∃ t, exec (.blez rs imm16) s = .next t ∧ OnlyPcWritten s t ∧
        t.pc = if (s.reg rs).toInt ≤ 0 then BitVec.ofInt 32 (s.pc.toNat + imm16.toInt) else s.pc + 1) ∧
    (ReadsAs (wordI 0x04000000 rs 0 imm16) .immediate (.bltz rs imm16) ∧
      ∃ t, exec (.bltz rs imm16) s = .next t ∧ OnlyPcWritten s t ∧
        t.pc = if (s.reg rs).toInt < 0 then BitVec.ofInt 32 (s.pc.toNat + imm16.toInt) else s.pc + 1)

/-- R182, R183: `j` and `jal` go to the value of the register `addr` names, and write no register; a word with
`addr` above 31 is malformed, and fails the run when it is fetched. -/
def Obligations.JumpsGoThroughARegister : Prop :=
  ∀ (s : State) (addr : BitVec 26),
    (addr.toNat ≤ 31 →
      ReadsAs (wordJ 0x08000000 addr) .jump (.j addr) ∧
      ReadsAs (wordJ 0x0C000000 addr) .jump (.jal addr) ∧
      ∀ i : Instr, i = .j addr ∨ i = .jal addr → ∃ t, exec i s = .next t ∧ OnlyPcWritten s t ∧
        t.pc = s.reg (BitVec.ofNat 5 addr.toNat)) ∧
    (31 < addr.toNat → ∀ w : Word, w = wordJ 0x08000000 addr ∨ w = wordJ 0x0C000000 addr →
      (∃ r, decode Enc.default w = .error r) ∧
      (s.cfg.wf = true → s.progLen ≤ s.cfg.imemCapacity → s.run = .running →
        s.pc.toNat < s.progLen → s.pc.toNat < s.cfg.haltPc.toNat →
        s.cfg.enc = Enc.default → s.imem.read s.pc.toNat = some w →
        ∃ t, step s = .next t ∧
          OnlyFailed { s with steps := s.steps + 1 } t (.malformedInstruction w s.pc)))

/-- The model's choice (log entry 10): a `j` or `jal` term whose `addr` exceeds 31, which the decoder never
gives, fails as the malformed word its fields spell. -/
def Obligations.IllegalJumpTermFails : Prop :=
  ∀ (s : State) (addr : BitVec 26), 31 < addr.toNat → s.cfg.enc = Enc.default →
    ∀ (i : Instr) (w : Word),
      (i = .j addr ∧ w = wordJ 0x08000000 addr) ∨ (i = .jal addr ∧ w = wordJ 0x0C000000 addr) →
      ∃ t, exec i s = .next t ∧ OnlyFailed s t (.malformedInstruction w s.pc)

/-- R184, R196: `jr` goes to `x[rs]` and `break` to `x[rd]`; `break` raises nothing. -/
def Obligations.RegisterJumps : Prop :=
  ∀ (s : State) (rs rt rd : RegIdx) (shamt : BitVec 5),
    (ReadsAs (wordR 0x00000008 rs rt rd shamt) .register (.jr rs) ∧
      ∃ t, exec (.jr rs) s = .next t ∧ OnlyPcWritten s t ∧ t.pc = s.reg rs) ∧
    (ReadsAs (wordR 0x0000000D rs rt rd shamt) .register (.brk rd) ∧
      ∃ t, exec (.brk rd) s = .next t ∧ OnlyPcWritten s t ∧ t.pc = s.reg rd)

/-- R185: `jalr` links its own index in `x[rd]`, then goes to `x[rs]`, which is the link itself when `rd = rs`
(register 0 included). -/
def Obligations.JalrLinksItsOwnIndex : Prop :=
  ∀ (s : State) (rd rs rt : RegIdx) (shamt : BitVec 5),
    ReadsAs (wordR 0x00000009 rs rt rd shamt) .register (.jalr rd rs) ∧
    ∃ t, exec (.jalr rd rs) s = .next t ∧ OnlyRegWritten s t rd s.pc ∧
      t.pc = if rs = rd then s.pc else s.reg rs

/-! ## System -/

/-- R197, R198: the three services of `syscall`, and the unknown-service failure; no register changes. By
default the number is in register 2 and the argument in register 4. -/
def Obligations.SyscallServices : Prop :=
  ∀ (s : State) (rs rt rd : RegIdx) (shamt : BitVec 5),
    ReadsAs (wordR 0x0000000C rs rt rd shamt) .pseudo .syscall ∧
    Config.default.syscallNumReg = 2 ∧ Config.default.syscallArgReg = 4 ∧
    ∀ n a : Word, n = s.reg s.cfg.syscallNumReg → a = s.reg s.cfg.syscallArgReg →
      ∃ t, exec .syscall s = .next t ∧
        RegsKept s t ∧ t.hi = s.hi ∧ t.lo = s.lo ∧ BufferKept s t ∧
        (n = 1 → t.out = s.out ++ [.printInt a] ∧ t.pc = s.pc + 1 ∧ t.run = s.run ∧ t.fail = s.fail) ∧
        (n = 10 → t.out = s.out ∧ t.pc = s.cfg.haltPc ∧ t.run = s.run ∧ t.fail = s.fail) ∧
        (n = 11 → t.out = s.out ++ [.printChar (BitVec.ofNat 8 a.toNat)] ∧ t.pc = s.pc + 1 ∧
          t.run = s.run ∧ t.fail = s.fail) ∧
        (n ≠ 1 → n ≠ 10 → n ≠ 11 → t.out = s.out ++ [.unknownSyscallMessage n] ∧
          t.pc = s.cfg.haltPc ∧ t.run = .halted ∧ t.fail = some (.unknownSyscall n s.pc))

/-- R199: what PrintInt stands for is the decimal numeral of the signed value: a minus sign exactly for
negative values, then digits with no leading zero. The bytes are ASCII (log entry 13). -/
def Obligations.PrintIntIsTheSignedNumeral : Prop :=
  ∀ a : Word, ∃ sign digits : List (BitVec 8),
    (OutEvent.printInt a).content = some (sign ++ digits) ∧
    sign = (if a.toInt < 0 then [0x2D] else []) ∧
    digits ≠ [] ∧ (∀ d ∈ digits, 0x30 ≤ d.toNat ∧ d.toNat ≤ 0x39) ∧
    digits.foldl (fun n d => 10 * n + (d.toNat - 0x30)) 0 = a.toInt.natAbs ∧
    (digits.head? = some 0x30 → digits = [0x30])
end

