-- ==== Sys2Proof/Laws/Decode.lean ====
section
/-! SUPPORT. The decoder's laws: fields of an encoded word and back, what it is to match a row, dispatch of a
word that matches exactly one row, and the instructions the decoder can give. -/

namespace Sys2Proof

/-! ## Fields and words as numbers -/

theorem append_toNat {n m : Nat} (a : BitVec n) (b : BitVec m) :
    (a ++ b).toNat = a.toNat * 2 ^ m + b.toNat := by
  rw [BitVec.toNat_append, ← Nat.shiftLeft_add_eq_or_of_lt b.isLt, Nat.shiftLeft_eq]

theorem extract_toNat (w : Word) (start len : Nat) :
    (w.extractLsb' start len).toNat = w.toNat / 2 ^ start % 2 ^ len := by
  rw [BitVec.extractLsb'_toNat, Nat.shiftRight_eq_div_pow]

section
variable (op op' funct funct' : BitVec 6) (rs rs' rt rt' rd rd' : RegIdx) (shamt shamt' : BitVec 5)
  (imm16 imm16' : BitVec 16) (addr addr' : BitVec 26) (w : Word)

theorem opField_toNat : (opField w).toNat = w.toNat / 2 ^ 26 % 2 ^ 6 := extract_toNat w 26 6
theorem rsField_toNat : (rsField w).toNat = w.toNat / 2 ^ 21 % 2 ^ 5 := extract_toNat w 21 5
theorem rtField_toNat : (rtField w).toNat = w.toNat / 2 ^ 16 % 2 ^ 5 := extract_toNat w 16 5
theorem rdField_toNat : (rdField w).toNat = w.toNat / 2 ^ 11 % 2 ^ 5 := extract_toNat w 11 5
theorem shamtField_toNat : (shamtField w).toNat = w.toNat / 2 ^ 6 % 2 ^ 5 := extract_toNat w 6 5
theorem functField_toNat : (functField w).toNat = w.toNat / 2 ^ 0 % 2 ^ 6 := extract_toNat w 0 6
theorem imm16Field_toNat : (imm16Field w).toNat = w.toNat / 2 ^ 0 % 2 ^ 16 := extract_toNat w 0 16
theorem addrField_toNat : (addrField w).toNat = w.toNat / 2 ^ 0 % 2 ^ 26 := extract_toNat w 0 26

theorem encodeR_toNat : (encodeR op rs rt rd shamt funct).toNat =
    op.toNat * 2 ^ 26 + rs.toNat * 2 ^ 21 + rt.toNat * 2 ^ 16 + rd.toNat * 2 ^ 11 +
      shamt.toNat * 2 ^ 6 + funct.toNat := by
  have h : (op ++ rs ++ rt ++ rd ++ shamt ++ funct).toNat = op.toNat * 2 ^ 26 + rs.toNat * 2 ^ 21 +
      rt.toNat * 2 ^ 16 + rd.toNat * 2 ^ 11 + shamt.toNat * 2 ^ 6 + funct.toNat := by
    simp only [append_toNat]; omega
  exact h

theorem encodeI_toNat : (encodeI op rs rt imm16).toNat =
    op.toNat * 2 ^ 26 + rs.toNat * 2 ^ 21 + rt.toNat * 2 ^ 16 + imm16.toNat := by
  have h : (op ++ rs ++ rt ++ imm16).toNat =
      op.toNat * 2 ^ 26 + rs.toNat * 2 ^ 21 + rt.toNat * 2 ^ 16 + imm16.toNat := by
    simp only [append_toNat]; omega
  exact h

theorem encodeJ_toNat : (encodeJ op addr).toNat = op.toNat * 2 ^ 26 + addr.toNat := by
  exact append_toNat op addr

/-! ## The fields of an encoded word -/

@[simp] theorem opField_encodeR : opField (encodeR op rs rt rd shamt funct) = op := by
  apply BitVec.eq_of_toNat_eq; rw [opField_toNat, encodeR_toNat]; omega
@[simp] theorem rsField_encodeR : rsField (encodeR op rs rt rd shamt funct) = rs := by
  apply BitVec.eq_of_toNat_eq; rw [rsField_toNat, encodeR_toNat]; omega
@[simp] theorem rtField_encodeR : rtField (encodeR op rs rt rd shamt funct) = rt := by
  apply BitVec.eq_of_toNat_eq; rw [rtField_toNat, encodeR_toNat]; omega
@[simp] theorem rdField_encodeR : rdField (encodeR op rs rt rd shamt funct) = rd := by
  apply BitVec.eq_of_toNat_eq; rw [rdField_toNat, encodeR_toNat]; omega
@[simp] theorem shamtField_encodeR : shamtField (encodeR op rs rt rd shamt funct) = shamt := by
  apply BitVec.eq_of_toNat_eq; rw [shamtField_toNat, encodeR_toNat]; omega
@[simp] theorem functField_encodeR : functField (encodeR op rs rt rd shamt funct) = funct := by
  apply BitVec.eq_of_toNat_eq; rw [functField_toNat, encodeR_toNat]; omega

@[simp] theorem opField_encodeI : opField (encodeI op rs rt imm16) = op := by
  apply BitVec.eq_of_toNat_eq; rw [opField_toNat, encodeI_toNat]; omega
@[simp] theorem rsField_encodeI : rsField (encodeI op rs rt imm16) = rs := by
  apply BitVec.eq_of_toNat_eq; rw [rsField_toNat, encodeI_toNat]; omega
@[simp] theorem rtField_encodeI : rtField (encodeI op rs rt imm16) = rt := by
  apply BitVec.eq_of_toNat_eq; rw [rtField_toNat, encodeI_toNat]; omega
@[simp] theorem imm16Field_encodeI : imm16Field (encodeI op rs rt imm16) = imm16 := by
  apply BitVec.eq_of_toNat_eq; rw [imm16Field_toNat, encodeI_toNat]; omega

@[simp] theorem opField_encodeJ : opField (encodeJ op addr) = op := by
  apply BitVec.eq_of_toNat_eq; rw [opField_toNat, encodeJ_toNat]; omega
@[simp] theorem addrField_encodeJ : addrField (encodeJ op addr) = addr := by
  apply BitVec.eq_of_toNat_eq; rw [addrField_toNat, encodeJ_toNat]; omega

/-! ## A word is made of its fields -/

theorem encodeR_fields :
    encodeR (opField w) (rsField w) (rtField w) (rdField w) (shamtField w) (functField w) = w := by
  apply BitVec.eq_of_toNat_eq
  rw [encodeR_toNat, opField_toNat, rsField_toNat, rtField_toNat, rdField_toNat, shamtField_toNat,
    functField_toNat]
  omega

theorem encodeI_fields : encodeI (opField w) (rsField w) (rtField w) (imm16Field w) = w := by
  apply BitVec.eq_of_toNat_eq
  rw [encodeI_toNat, opField_toNat, rsField_toNat, rtField_toNat, imm16Field_toNat]
  omega

theorem encodeJ_fields : encodeJ (opField w) (addrField w) = w := by
  apply BitVec.eq_of_toNat_eq
  rw [encodeJ_toNat, opField_toNat, addrField_toNat]
  omega

theorem encodeR_and :
    encodeR op rs rt rd shamt funct &&& encodeR op' rs' rt' rd' shamt' funct' =
      encodeR (op &&& op') (rs &&& rs') (rt &&& rt') (rd &&& rd') (shamt &&& shamt')
        (funct &&& funct') := by
  have h : (op ++ rs ++ rt ++ rd ++ shamt ++ funct) &&& (op' ++ rs' ++ rt' ++ rd' ++ shamt' ++ funct') =
      (op &&& op') ++ (rs &&& rs') ++ (rt &&& rt') ++ (rd &&& rd') ++ (shamt &&& shamt') ++
        (funct &&& funct') := by
    simp only [BitVec.and_append]
  exact h

theorem encodeI_and :
    encodeI op rs rt imm16 &&& encodeI op' rs' rt' imm16' =
      encodeI (op &&& op') (rs &&& rs') (rt &&& rt') (imm16 &&& imm16') := by
  have h : (op ++ rs ++ rt ++ imm16) &&& (op' ++ rs' ++ rt' ++ imm16') =
      (op &&& op') ++ (rs &&& rs') ++ (rt &&& rt') ++ (imm16 &&& imm16') := by
    simp only [BitVec.and_append]
  exact h

theorem encodeR_inj :
    encodeR op rs rt rd shamt funct = encodeR op' rs' rt' rd' shamt' funct' ↔
      op = op' ∧ rs = rs' ∧ rt = rt' ∧ rd = rd' ∧ shamt = shamt' ∧ funct = funct' := by
  constructor
  · intro h
    refine ⟨?_, ?_, ?_, ?_, ?_, ?_⟩
    · simpa using congrArg opField h
    · simpa using congrArg rsField h
    · simpa using congrArg rtField h
    · simpa using congrArg rdField h
    · simpa using congrArg shamtField h
    · simpa using congrArg functField h
  · rintro ⟨rfl, rfl, rfl, rfl, rfl, rfl⟩; rfl

theorem encodeI_inj :
    encodeI op rs rt imm16 = encodeI op' rs' rt' imm16' ↔
      op = op' ∧ rs = rs' ∧ rt = rt' ∧ imm16 = imm16' := by
  constructor
  · intro h
    refine ⟨?_, ?_, ?_, ?_⟩
    · simpa using congrArg opField h
    · simpa using congrArg rsField h
    · simpa using congrArg rtField h
    · simpa using congrArg imm16Field h
  · rintro ⟨rfl, rfl, rfl, rfl⟩; rfl

end

/-! ## Matching a row -/

/-- What a word's fields must be to match a row, family by family (R85, R86, R88). -/
def Enc.keyHolds (e : Enc) (w : Word) (m : Mnemonic) : Prop :=
  match m.family with
  | .register | .pseudo => opField w = 0 ∧ functField w = e.funct m
  | .jump => opField w = e.op m ∧ w.extractLsb' 5 21 = 0
  | .immediate => opField w = e.op m ∧ rtAdmitted (e.rtKey m) (rtField w) = true

theorem and_ones6 (x : BitVec 6) : x &&& 63 = x := BitVec.and_allOnes

theorem and_ones5 (x : BitVec 5) : x &&& 31 = x := BitVec.and_allOnes

theorem mask_functs (w : Word) (f : BitVec 6) :
    w &&& 0xFC00003F = encodeR 0 0 0 0 0 f ↔ opField w = 0 ∧ functField w = f := by
  conv_lhs => rw [← encodeR_fields w, show (0xFC00003F : Word) = encodeR 63 0 0 0 0 63 from rfl,
    encodeR_and, encodeR_inj, and_ones6, and_ones6]
  simp

theorem mask_op (w : Word) (p : BitVec 6) :
    w &&& 0xFC000000 = encodeI p 0 0 0 ↔ opField w = p := by
  conv_lhs => rw [← encodeI_fields w, show (0xFC000000 : Word) = encodeI 63 0 0 0 from rfl,
    encodeI_and, encodeI_inj, and_ones6]
  simp

theorem mask_opRt (w : Word) (p : BitVec 6) (k : BitVec 5) :
    w &&& 0xFC1F0000 = encodeI p 0 k 0 ↔ opField w = p ∧ rtField w = k := by
  conv_lhs => rw [← encodeI_fields w, show (0xFC1F0000 : Word) = encodeI 63 0 31 0 from rfl,
    encodeI_and, encodeI_inj, and_ones6, and_ones5]
  simp

theorem mask_jump (w : Word) (p : BitVec 6) :
    w &&& 0xFFFFFFE0 = encodeJ p 0 ↔ opField w = p ∧ w.extractLsb' 5 21 = 0 := by
  have hw : w = (opField w ++ w.extractLsb' 5 21 ++ w.extractLsb' 0 5 : BitVec (6 + 21 + 5)) := by
    apply BitVec.eq_of_toNat_eq
    rw [append_toNat, append_toNat, opField_toNat, extract_toNat, extract_toNat]
    omega
  have hm : (0xFFFFFFE0 : Word) =
      (BitVec.allOnes 6 ++ BitVec.allOnes 21 ++ (0 : BitVec 5) : BitVec (6 + 21 + 5)) := rfl
  have hp : encodeJ p 0 = (p ++ (0 : BitVec 21) ++ (0 : BitVec 5) : BitVec (6 + 21 + 5)) := by
    apply BitVec.eq_of_toNat_eq
    rw [encodeJ_toNat, append_toNat, append_toNat]
    simp
    omega
  have h : ((opField w ++ w.extractLsb' 5 21 ++ w.extractLsb' 0 5 : BitVec (6 + 21 + 5)) &&&
      (BitVec.allOnes 6 ++ BitVec.allOnes 21 ++ (0 : BitVec 5)) =
        p ++ (0 : BitVec 21) ++ (0 : BitVec 5)) ↔ opField w = p ∧ w.extractLsb' 5 21 = 0 := by
    simp only [BitVec.and_append, BitVec.and_allOnes]
    constructor
    · intro h
      have h := congrArg BitVec.toNat h
      simp only [append_toNat] at h
      have h1 := (w.extractLsb' 5 21).isLt
      constructor <;> apply BitVec.eq_of_toNat_eq <;> simp at h ⊢ <;> omega
    · rintro ⟨h1, h2⟩
      rw [h1, h2, show w.extractLsb' 0 5 &&& (0 : BitVec 5) = 0 from BitVec.and_zero]
  rw [hp, hm]
  conv_lhs => rw [hw]
  exact h

/-- Matching a row by match and mask (R88) is having its key in the fields. -/
theorem rowMatches_iff (e : Enc) (w : Word) (m : Mnemonic) :
    e.rowMatches w m = true ↔ e.keyHolds w m := by
  unfold Enc.rowMatches Enc.keyHolds Enc.mask Enc.pattern
  rw [beq_iff_eq]
  cases m.family with
  | pseudo => exact mask_functs w _
  | register => exact mask_functs w _
  | jump => exact mask_jump w _
  | immediate =>
    cases hk : e.rtKey m with
    | none =>
      show w &&& 0xFC000000 = encodeI (e.op m) 0 0 0 ↔ opField w = e.op m ∧ true = true
      rw [mask_op, and_iff_left rfl]
    | some k =>
      show w &&& 0xFC1F0000 = encodeI (e.op m) 0 k 0 ↔ opField w = e.op m ∧ (k == rtField w) = true
      rw [mask_opRt, beq_iff_eq, eq_comm (a := k)]

/-! ## Dispatch -/

theorem mem_all (m : Mnemonic) : m ∈ Mnemonic.all := by cases m <;> decide

theorem mem_ofFamily (m : Mnemonic) : m ∈ Mnemonic.ofFamily m.family := by cases m <;> decide

theorem family_of_mem {f : Family} {m : Mnemonic} (h : m ∈ Mnemonic.ofFamily f) : m.family = f := by
  cases f <;> fin_cases h <;> rfl

/-- A dispatched word has the key of its row. -/
theorem keyHolds_of_dispatch {e : Enc} {w : Word} {m : Mnemonic} (h : dispatch e w = some m) :
    e.keyHolds w m :=
  (rowMatches_iff e w m).1 (List.find?_some h)

theorem dispatch_isSome_iff (e : Enc) (w : Word) :
    (dispatch e w).isSome = true ↔ ∃ m, e.keyHolds w m := by
  simp only [dispatch, List.find?_isSome, rowMatches_iff]
  exact ⟨fun ⟨m, _, h⟩ => ⟨m, h⟩, fun ⟨m, h⟩ => ⟨m, mem_all m, h⟩⟩

/-- A word that has the key of one row only is dispatched to it. -/
theorem dispatch_eq_some {e : Enc} {w : Word} {m : Mnemonic} (h : e.keyHolds w m)
    (hu : ∀ m', e.keyHolds w m' → m' = m) : dispatch e w = some m := by
  have hs := (dispatch_isSome_iff e w).2 ⟨m, h⟩
  obtain ⟨m', hm'⟩ := Option.isSome_iff_exists.1 hs
  rw [hm', hu m' (keyHolds_of_dispatch hm')]

theorem decode_of_dispatch {e : Enc} {w : Word} {m : Mnemonic} (h : dispatch e w = some m) :
    decode e w = .ok (assemble w m) := by
  simp [decode, h]

/-- What the decoder gives: the instruction of the row dispatched, or an error when there is none. -/
theorem decode_ok_iff {e : Enc} {w : Word} {i : Instr} :
    decode e w = .ok i ↔ ∃ m, dispatch e w = some m ∧ assemble w m = i := by
  unfold decode
  cases dispatch e w <;> simp

@[simp] theorem mnemonic_assemble (w : Word) (m : Mnemonic) : (assemble w m).mnemonic = m := by
  cases m <;> rfl

/-- The decoder gives well-formed instructions only: the jump rows' mask bounds `addr` (R88). -/
theorem decode_wellFormed {e : Enc} {w : Word} {i : Instr} (h : decode e w = .ok i) :
    i.wellFormed = true := by
  obtain ⟨m, hm, rfl⟩ := decode_ok_iff.1 h
  have hk := keyHolds_of_dispatch hm
  have key : w.extractLsb' 5 21 = 0 → addrLegal (addrField w) = true := by
    intro hz
    have := congrArg BitVec.toNat hz
    rw [extract_toNat] at this
    simp [addrLegal, addrField_toNat] at this ⊢
    omega
  cases m <;> first | rfl | exact key hk.2

/-! ## One word matches one row -/

/-- In a list whose entries are pairwise related, two different entries are related, one way round. -/
theorem pairwise_of_mem {α : Type} {R : α → α → Prop} {l : List α} (h : l.Pairwise R) {a b : α}
    (ha : a ∈ l) (hb : b ∈ l) (hne : a ≠ b) : R a b ∨ R b a := by
  induction l with
  | nil => cases ha
  | cons c l ih =>
    obtain ⟨hc, hl⟩ := List.pairwise_cons.1 h
    rcases List.mem_cons.1 ha with rfl | ha' <;> rcases List.mem_cons.1 hb with rfl | hb'
    · exact absurd rfl hne
    · exact .inl (hc b hb')
    · exact .inr (hc a ha')
    · exact ih hl ha' hb'

/-- The parts of R94 that `Enc.wf` checks, as facts about mnemonics. -/
structure Enc.WfFacts (e : Enc) : Prop where
  opNonzero : ∀ m, m.family = .jump ∨ m.family = .immediate → e.op m ≠ 0
  jumpInj : ∀ m m', m.family = .jump → m'.family = .jump → e.op m = e.op m' → m = m'
  jumpImm : ∀ m m', m.family = .jump → m'.family = .immediate → e.op m ≠ e.op m'
  immApart : ∀ m m', m.family = .immediate → m'.family = .immediate → m ≠ m' → e.op m = e.op m' →
    rtKeysApart (e.rtKey m) (e.rtKey m') = true
  registerInj : ∀ m m', m.family = .register → m'.family = .register → e.funct m = e.funct m' → m = m'
  pseudoInj : ∀ m m', m.family = .pseudo → m'.family = .pseudo → e.funct m = e.funct m' → m = m'

theorem rtKeysApart_comm (a b : Option (BitVec 5)) : rtKeysApart a b = rtKeysApart b a := by
  cases a <;> cases b <;> simp [rtKeysApart, bne_comm]

theorem Enc.wfFacts {e : Enc} (h : e.wf = true) : e.WfFacts := by
  unfold Enc.wf at h
  simp only [Bool.and_eq_true, decide_eq_true_eq, List.all_eq_true] at h
  obtain ⟨⟨⟨⟨⟨hb, hj⟩, hc⟩, hd⟩, hr⟩, hp⟩ := h
  have mem {m : Mnemonic} {f : Family} (hm : m.family = f) : m ∈ Mnemonic.ofFamily f :=
    hm ▸ mem_ofFamily m
  have inj {f : Family} {g : Mnemonic → BitVec 6} (hn : ((Mnemonic.ofFamily f).map g).Nodup)
      (m m' : Mnemonic) (hm : m.family = f) (hm' : m'.family = f) (hg : g m = g m') : m = m' :=
    List.inj_on_of_nodup_map hn (mem hm) (mem hm') hg
  refine ⟨?_, inj hj, ?_, ?_, inj hr, inj hp⟩
  · intro m hm
    have := hb (e.op m) (by
      rcases hm with hm | hm
      · exact List.mem_append_left _ (List.mem_map.2 ⟨m, mem hm, rfl⟩)
      · exact List.mem_append_right _ (List.mem_map.2 ⟨m, mem hm, rfl⟩))
    simpa using this
  · intro m m' hm hm' heq
    have := hc (e.op m) (List.mem_map.2 ⟨m, mem hm, rfl⟩)
    simp only [Bool.not_eq_true', List.contains_eq_mem, decide_eq_false_iff_not] at this
    exact this (List.mem_map.2 ⟨m', mem hm', heq.symm⟩)
  · intro m m' hm hm' hne heq
    rcases pairwise_of_mem hd (mem hm) (mem hm') hne with h | h
    · simpa [heq] using h
    · rw [rtKeysApart_comm]; simpa [heq] using h

/-- No `rt` field satisfies two sub-keys that are apart. -/
theorem rtAdmitted_apart {a b : Option (BitVec 5)} {rt : BitVec 5} (h : rtKeysApart a b = true)
    (ha : rtAdmitted a rt = true) (hb : rtAdmitted b rt = true) : False := by
  cases a <;> cases b <;> simp_all [rtKeysApart, rtAdmitted]

/-- Under a well-formed assignment with PSEUDO and REGISTER function codes disjoint, no word has the keys
of two rows (R88). -/
theorem keyHolds_unique {e : Enc} (hwf : e.wf = true) (hdis : e.functsDisjoint = true) {w : Word}
    {m m' : Mnemonic} (h : e.keyHolds w m) (h' : e.keyHolds w m') : m = m' := by
  have F := Enc.wfFacts hwf
  have cross {a b : Mnemonic} (ha : a.family = .pseudo) (hb : b.family = .register) :
      e.funct a ≠ e.funct b := by
    intro heq
    have := List.all_eq_true.1 hdis (e.funct a) (List.mem_map.2 ⟨a, ha ▸ mem_ofFamily a, rfl⟩)
    simp only [Bool.not_eq_true', List.contains_eq_mem, decide_eq_false_iff_not] at this
    exact this (List.mem_map.2 ⟨b, hb ▸ mem_ofFamily b, heq.symm⟩)
  unfold Enc.keyHolds at h h'
  cases hf : m.family <;> cases hf' : m'.family <;> simp only [hf, hf'] at h h'
  case pseudo.pseudo => exact F.pseudoInj _ _ hf hf' (h.2.symm.trans h'.2)
  case pseudo.register => exact absurd (h.2.symm.trans h'.2) (cross hf hf')
  case register.pseudo => exact absurd (h'.2.symm.trans h.2) (cross hf' hf)
  case register.register => exact F.registerInj _ _ hf hf' (h.2.symm.trans h'.2)
  case jump.jump => exact F.jumpInj _ _ hf hf' (h.1.symm.trans h'.1)
  case jump.immediate => exact absurd (h.1.symm.trans h'.1) (F.jumpImm _ _ hf hf')
  case immediate.jump => exact absurd (h'.1.symm.trans h.1) (F.jumpImm _ _ hf' hf)
  case immediate.immediate =>
    by_contra hne
    exact rtAdmitted_apart (F.immApart _ _ hf hf' hne (h.1.symm.trans h'.1)) h.2 h'.2
  case pseudo.jump => exact absurd (h'.1.symm.trans h.1) (F.opNonzero _ (.inl hf'))
  case pseudo.immediate => exact absurd (h'.1.symm.trans h.1) (F.opNonzero _ (.inr hf'))
  case register.jump => exact absurd (h'.1.symm.trans h.1) (F.opNonzero _ (.inl hf'))
  case register.immediate => exact absurd (h'.1.symm.trans h.1) (F.opNonzero _ (.inr hf'))
  case jump.pseudo => exact absurd (h.1.symm.trans h'.1) (F.opNonzero _ (.inl hf))
  case jump.register => exact absurd (h.1.symm.trans h'.1) (F.opNonzero _ (.inl hf))
  case immediate.pseudo => exact absurd (h.1.symm.trans h'.1) (F.opNonzero _ (.inr hf))
  case immediate.register => exact absurd (h.1.symm.trans h'.1) (F.opNonzero _ (.inr hf))

/-! ## The default assignment -/

theorem Enc.default_wf : Enc.default.wf = true := by decide

theorem Enc.default_functsDisjoint : Enc.default.functsDisjoint = true := by decide

/-- Under `ENC_DEFAULT` a word that has the key of a row is decoded to that row's instruction. -/
theorem decode_default {w : Word} {m : Mnemonic} (h : Enc.default.keyHolds w m) :
    decode Enc.default w = .ok (assemble w m) :=
  decode_of_dispatch (dispatch_eq_some h fun _ h' =>
    keyHolds_unique Enc.default_wf Enc.default_functsDisjoint h' h)

end Sys2Proof
end

