-- ==== Sys2Proof/Laws/Operands.lean ====
section
/-! SUPPORT. The arithmetic of the handlers, defined on integers as the spec writes it, is the bit-vector
arithmetic of the same name. -/

namespace Sys2Proof.Machine

theorem trunc32_toInt (a : Word) : trunc32 a.toInt = a := BitVec.ofInt_toInt

theorem addWrap_eq (a b : Word) : addWrap a b = a + b := by
  rw [addWrap, trunc32, s32, s32, BitVec.ofInt_add, BitVec.ofInt_toInt, BitVec.ofInt_toInt]

theorem subWrap_eq (a b : Word) : subWrap a b = a - b := by
  apply BitVec.eq_of_toInt_eq
  simp [subWrap, trunc32, BitVec.toInt_sub]

theorem mulWrap_eq (a b : Word) : mulWrap a b = a * b := by
  rw [mulWrap, trunc32, s32, s32, BitVec.ofInt_mul, BitVec.ofInt_toInt, BitVec.ofInt_toInt]

theorem quotient_eq (a b : Word) : quotient a b = a.sdiv b := by
  apply BitVec.eq_of_toInt_eq
  simp [quotient, trunc32, BitVec.toInt_sdiv]

theorem remainder_eq (a b : Word) : remainder a b = a.srem b := by
  have h : s32 a - (s32 a).tdiv (s32 b) * s32 b = (s32 a).tmod (s32 b) := by
    have := Int.mul_tdiv_add_tmod (s32 a) (s32 b)
    rw [Int.mul_comm] at this
    omega
  rw [remainder, h, trunc32]
  apply BitVec.eq_of_toInt_eq
  rw [← BitVec.toInt_srem, BitVec.ofInt_toInt]

theorem shiftLeft_eq (v : Word) (n : BitVec 5) : shiftLeft v n = v <<< n.toNat := by
  apply BitVec.eq_of_toNat_eq
  have : (u32 v * 2 ^ n.toNat : Int) = ((v.toNat * 2 ^ n.toNat : Nat) : Int) := by push_cast; rfl
  rw [shiftLeft, trunc32, this, BitVec.toNat_ofInt, BitVec.toNat_shiftLeft, Nat.shiftLeft_eq]
  norm_cast

theorem shiftRightU_eq (v : Word) (n : BitVec 5) : shiftRightU v n = v >>> n.toNat := by
  apply BitVec.eq_of_toNat_eq
  rw [shiftRightU, BitVec.toNat_ofNat, BitVec.toNat_ushiftRight, Nat.shiftRight_eq_div_pow]
  exact Nat.mod_eq_of_lt (Nat.lt_of_le_of_lt (Nat.div_le_self _ _) v.isLt)

theorem shiftRightS_eq (v : Word) (n : BitVec 5) : shiftRightS v n = v.sshiftRight n.toNat := by
  rw [shiftRightS, trunc32, BitVec.sshiftRight, Int.shiftRight_eq_div_pow,
    Int.fdiv_eq_ediv_of_nonneg _ (by positivity)]
  norm_cast

theorem branchTarget_eq (pc : Word) (imm16 : BitVec 16) :
    branchTarget pc imm16 = pc + sext32 imm16 := by
  rw [branchTarget, trunc32, s32, BitVec.ofInt_add, BitVec.ofInt_toInt]
  congr 1
  exact BitVec.eq_of_toNat_eq (by simp)

theorem upperImm_eq (imm16 : BitVec 16) : upperImm imm16 = imm16 ++ (0 : BitVec 16) := by
  apply BitVec.eq_of_toNat_eq
  have h : (imm16.toNat * 2 ^ 16 : Int) = ((imm16.toNat * 2 ^ 16 : Nat) : Int) := by push_cast; rfl
  have hlt : imm16.toNat * 2 ^ 16 < 2 ^ 32 := by have := imm16.isLt; omega
  have hr : (imm16 ++ (0 : BitVec 16)).toNat = imm16.toNat * 2 ^ 16 := by
    rw [BitVec.toNat_append]
    simp [Nat.shiftLeft_eq]
  rw [upperImm, trunc32, h, BitVec.ofInt_natCast, BitVec.toNat_ofNat, Nat.mod_eq_of_lt hlt, hr]

/-- A register that an `addr` field of at most 31 names has that number. -/
theorem addrReg_toNat {addr : BitVec 26} (h : addrLegal addr = true) :
    (addrReg addr).toNat = addr.toNat := by
  have : addr.toNat ≤ 31 := by simpa [addrLegal] using h
  simp [addrReg, BitVec.extractLsb'_toNat]
  omega

end Sys2Proof.Machine
end

