-- ==== Sys2Proof/Laws/State.lean ====
section
/-! SUPPORT. One lemma per field per update of the state, each true by rfl: no later proof unfolds a record
update. -/

namespace Sys2Proof.Machine

variable (s : State)

@[simp] theorem State.setReg_hi (i : RegIdx) (v : Word) : (s.setReg i v).hi = s.hi := rfl
@[simp] theorem State.setReg_lo (i : RegIdx) (v : Word) : (s.setReg i v).lo = s.lo := rfl
@[simp] theorem State.setReg_pc (i : RegIdx) (v : Word) : (s.setReg i v).pc = s.pc := rfl
@[simp] theorem State.setReg_run (i : RegIdx) (v : Word) : (s.setReg i v).run = s.run := rfl
@[simp] theorem State.setReg_fail (i : RegIdx) (v : Word) : (s.setReg i v).fail = s.fail := rfl
@[simp] theorem State.setReg_out (i : RegIdx) (v : Word) : (s.setReg i v).out = s.out := rfl
@[simp] theorem State.setReg_steps (i : RegIdx) (v : Word) : (s.setReg i v).steps = s.steps := rfl
@[simp] theorem State.setReg_imem (i : RegIdx) (v : Word) : (s.setReg i v).imem = s.imem := rfl
@[simp] theorem State.setReg_progLen (i : RegIdx) (v : Word) : (s.setReg i v).progLen = s.progLen := rfl
@[simp] theorem State.setReg_cfg (i : RegIdx) (v : Word) : (s.setReg i v).cfg = s.cfg := rfl

@[simp] theorem State.setHi_hi (v : Word) : (s.setHi v).hi = v := rfl
@[simp] theorem State.setHi_lo (v : Word) : (s.setHi v).lo = s.lo := rfl
@[simp] theorem State.setHi_pc (v : Word) : (s.setHi v).pc = s.pc := rfl
@[simp] theorem State.setHi_run (v : Word) : (s.setHi v).run = s.run := rfl
@[simp] theorem State.setHi_fail (v : Word) : (s.setHi v).fail = s.fail := rfl
@[simp] theorem State.setHi_out (v : Word) : (s.setHi v).out = s.out := rfl
@[simp] theorem State.setHi_steps (v : Word) : (s.setHi v).steps = s.steps := rfl
@[simp] theorem State.setHi_imem (v : Word) : (s.setHi v).imem = s.imem := rfl
@[simp] theorem State.setHi_progLen (v : Word) : (s.setHi v).progLen = s.progLen := rfl
@[simp] theorem State.setHi_cfg (v : Word) : (s.setHi v).cfg = s.cfg := rfl

@[simp] theorem State.setLo_hi (v : Word) : (s.setLo v).hi = s.hi := rfl
@[simp] theorem State.setLo_lo (v : Word) : (s.setLo v).lo = v := rfl
@[simp] theorem State.setLo_pc (v : Word) : (s.setLo v).pc = s.pc := rfl
@[simp] theorem State.setLo_run (v : Word) : (s.setLo v).run = s.run := rfl
@[simp] theorem State.setLo_fail (v : Word) : (s.setLo v).fail = s.fail := rfl
@[simp] theorem State.setLo_out (v : Word) : (s.setLo v).out = s.out := rfl
@[simp] theorem State.setLo_steps (v : Word) : (s.setLo v).steps = s.steps := rfl
@[simp] theorem State.setLo_imem (v : Word) : (s.setLo v).imem = s.imem := rfl
@[simp] theorem State.setLo_progLen (v : Word) : (s.setLo v).progLen = s.progLen := rfl
@[simp] theorem State.setLo_cfg (v : Word) : (s.setLo v).cfg = s.cfg := rfl

@[simp] theorem State.emit_hi (e : OutEvent) : (s.emit e).hi = s.hi := rfl
@[simp] theorem State.emit_lo (e : OutEvent) : (s.emit e).lo = s.lo := rfl
@[simp] theorem State.emit_pc (e : OutEvent) : (s.emit e).pc = s.pc := rfl
@[simp] theorem State.emit_run (e : OutEvent) : (s.emit e).run = s.run := rfl
@[simp] theorem State.emit_fail (e : OutEvent) : (s.emit e).fail = s.fail := rfl
@[simp] theorem State.emit_out (e : OutEvent) : (s.emit e).out = s.out ++ [e] := rfl
@[simp] theorem State.emit_steps (e : OutEvent) : (s.emit e).steps = s.steps := rfl
@[simp] theorem State.emit_imem (e : OutEvent) : (s.emit e).imem = s.imem := rfl
@[simp] theorem State.emit_progLen (e : OutEvent) : (s.emit e).progLen = s.progLen := rfl
@[simp] theorem State.emit_cfg (e : OutEvent) : (s.emit e).cfg = s.cfg := rfl

@[simp] theorem State.retireTo_hi (t : Word) : (s.retireTo t).hi = s.hi := rfl
@[simp] theorem State.retireTo_lo (t : Word) : (s.retireTo t).lo = s.lo := rfl
@[simp] theorem State.retireTo_pc (t : Word) : (s.retireTo t).pc = t := rfl
@[simp] theorem State.retireTo_run (t : Word) : (s.retireTo t).run = s.run := rfl
@[simp] theorem State.retireTo_fail (t : Word) : (s.retireTo t).fail = s.fail := rfl
@[simp] theorem State.retireTo_out (t : Word) : (s.retireTo t).out = s.out := rfl
@[simp] theorem State.retireTo_steps (t : Word) : (s.retireTo t).steps = s.steps := rfl
@[simp] theorem State.retireTo_imem (t : Word) : (s.retireTo t).imem = s.imem := rfl
@[simp] theorem State.retireTo_progLen (t : Word) : (s.retireTo t).progLen = s.progLen := rfl
@[simp] theorem State.retireTo_cfg (t : Word) : (s.retireTo t).cfg = s.cfg := rfl

@[simp] theorem State.retire_hi : (s.retire).hi = s.hi := rfl
@[simp] theorem State.retire_lo : (s.retire).lo = s.lo := rfl
@[simp] theorem State.retire_pc : (s.retire).pc = s.pc + 1 := rfl
@[simp] theorem State.retire_run : (s.retire).run = s.run := rfl
@[simp] theorem State.retire_fail : (s.retire).fail = s.fail := rfl
@[simp] theorem State.retire_out : (s.retire).out = s.out := rfl
@[simp] theorem State.retire_steps : (s.retire).steps = s.steps := rfl
@[simp] theorem State.retire_imem : (s.retire).imem = s.imem := rfl
@[simp] theorem State.retire_progLen : (s.retire).progLen = s.progLen := rfl
@[simp] theorem State.retire_cfg : (s.retire).cfg = s.cfg := rfl

@[simp] theorem State.raise_hi (f : Failure) : (s.raise f).hi = s.hi := rfl
@[simp] theorem State.raise_lo (f : Failure) : (s.raise f).lo = s.lo := rfl
@[simp] theorem State.raise_pc (f : Failure) : (s.raise f).pc = s.pc := rfl
@[simp] theorem State.raise_run (f : Failure) : (s.raise f).run = .halted := rfl
@[simp] theorem State.raise_fail (f : Failure) : (s.raise f).fail = some f := rfl
@[simp] theorem State.raise_out (f : Failure) : (s.raise f).out = s.out := rfl
@[simp] theorem State.raise_steps (f : Failure) : (s.raise f).steps = s.steps := rfl
@[simp] theorem State.raise_imem (f : Failure) : (s.raise f).imem = s.imem := rfl
@[simp] theorem State.raise_progLen (f : Failure) : (s.raise f).progLen = s.progLen := rfl
@[simp] theorem State.raise_cfg (f : Failure) : (s.raise f).cfg = s.cfg := rfl

@[simp] theorem State.halt_hi : (s.halt).hi = s.hi := rfl
@[simp] theorem State.halt_lo : (s.halt).lo = s.lo := rfl
@[simp] theorem State.halt_pc : (s.halt).pc = s.pc := rfl
@[simp] theorem State.halt_run : (s.halt).run = .halted := rfl
@[simp] theorem State.halt_fail : (s.halt).fail = s.fail := rfl
@[simp] theorem State.halt_out : (s.halt).out = s.out := rfl
@[simp] theorem State.halt_steps : (s.halt).steps = s.steps := rfl
@[simp] theorem State.halt_imem : (s.halt).imem = s.imem := rfl
@[simp] theorem State.halt_progLen : (s.halt).progLen = s.progLen := rfl
@[simp] theorem State.halt_cfg : (s.halt).cfg = s.cfg := rfl

@[simp] theorem State.tick_hi : (s.tick).hi = s.hi := rfl
@[simp] theorem State.tick_lo : (s.tick).lo = s.lo := rfl
@[simp] theorem State.tick_pc : (s.tick).pc = s.pc := rfl
@[simp] theorem State.tick_run : (s.tick).run = s.run := rfl
@[simp] theorem State.tick_fail : (s.tick).fail = s.fail := rfl
@[simp] theorem State.tick_out : (s.tick).out = s.out := rfl
@[simp] theorem State.tick_steps : (s.tick).steps = s.steps + 1 := rfl
@[simp] theorem State.tick_imem : (s.tick).imem = s.imem := rfl
@[simp] theorem State.tick_progLen : (s.tick).progLen = s.progLen := rfl
@[simp] theorem State.tick_cfg : (s.tick).cfg = s.cfg := rfl

@[simp] theorem State.load_hi (ws : List Word) : (s.load ws).hi = s.hi := rfl
@[simp] theorem State.load_lo (ws : List Word) : (s.load ws).lo = s.lo := rfl
@[simp] theorem State.load_pc (ws : List Word) : (s.load ws).pc = s.pc := rfl
@[simp] theorem State.load_run (ws : List Word) : (s.load ws).run = s.run := rfl
@[simp] theorem State.load_fail (ws : List Word) : (s.load ws).fail = s.fail := rfl
@[simp] theorem State.load_out (ws : List Word) : (s.load ws).out = s.out := rfl
@[simp] theorem State.load_steps (ws : List Word) : (s.load ws).steps = s.steps := rfl
@[simp] theorem State.load_cfg (ws : List Word) : (s.load ws).cfg = s.cfg := rfl
@[simp] theorem State.load_imem (ws : List Word) :
    (s.load ws).imem = Memory.ofWords 0 (ws.take s.cfg.imemCapacity) := rfl
@[simp] theorem State.load_progLen (ws : List Word) :
    (s.load ws).progLen = (ws.take s.cfg.imemCapacity).length := rfl

@[simp] theorem State.placeWord_hi (w : Word) : (s.placeWord w).hi = s.hi := rfl
@[simp] theorem State.placeWord_lo (w : Word) : (s.placeWord w).lo = s.lo := rfl
@[simp] theorem State.placeWord_fail (w : Word) : (s.placeWord w).fail = s.fail := rfl
@[simp] theorem State.placeWord_out (w : Word) : (s.placeWord w).out = s.out := rfl
@[simp] theorem State.placeWord_steps (w : Word) : (s.placeWord w).steps = s.steps := rfl
@[simp] theorem State.placeWord_regs (w : Word) : (s.placeWord w).regs = s.regs := rfl
@[simp] theorem State.placeWord_run (w : Word) : (s.placeWord w).run = .running := rfl
@[simp] theorem State.placeWord_pc (w : Word) : (s.placeWord w).pc = s.fetchIndex := rfl
@[simp] theorem State.placeWord_cfg (w : Word) : (s.placeWord w).cfg = s.usableCfg := rfl
@[simp] theorem State.placeWord_imem (w : Word) :
    (s.placeWord w).imem = s.imem.write s.fetchIndex.toNat w := rfl
@[simp] theorem State.placeWord_progLen (w : Word) : (s.placeWord w).progLen =
    max (min s.progLen s.usableCfg.imemCapacity) (s.fetchIndex.toNat + 1) := rfl

/-! ## The general registers -/

@[simp] theorem State.setHi_reg (v : Word) (r : RegIdx) : (s.setHi v).reg r = s.reg r := rfl
@[simp] theorem State.setLo_reg (v : Word) (r : RegIdx) : (s.setLo v).reg r = s.reg r := rfl
@[simp] theorem State.emit_reg (e : OutEvent) (r : RegIdx) : (s.emit e).reg r = s.reg r := rfl
@[simp] theorem State.raise_reg (f : Failure) (r : RegIdx) : (s.raise f).reg r = s.reg r := rfl
@[simp] theorem State.halt_reg (r : RegIdx) : (s.halt).reg r = s.reg r := rfl
@[simp] theorem State.tick_reg (r : RegIdx) : (s.tick).reg r = s.reg r := rfl
@[simp] theorem State.load_reg (ws : List Word) (r : RegIdx) : (s.load ws).reg r = s.reg r := rfl

/-- Read after write: the written register gives the value, every other one keeps its own. -/
@[simp] theorem State.setReg_reg (i : RegIdx) (v : Word) (r : RegIdx) :
    (s.setReg i v).reg r = if r = i then v else s.reg r := by
  simp only [State.reg, State.setReg, Vector.getElem_set, BitVec.toNat_inj, eq_comm]

@[simp] theorem State.retireTo_reg (t : Word) (r : RegIdx) :
    (s.retireTo t).reg r = if r = 0 then 0 else s.reg r :=
  State.setReg_reg s 0 0 r

@[simp] theorem State.retire_reg (r : RegIdx) :
    s.retire.reg r = if r = 0 then 0 else s.reg r :=
  State.setReg_reg s 0 0 r

/-- Two states with the same registers, read one by one, have the same register file. -/
theorem State.regs_ext {s t : State} (h : ∀ r, t.reg r = s.reg r) : t.regs = s.regs := by
  apply Vector.ext
  intro i hi
  simpa [State.reg, Nat.mod_eq_of_lt hi] using h (BitVec.ofNat 5 i)

@[simp] theorem State.reset_reg (r : RegIdx) : State.reset.reg r = 0 := by
  simp [State.reg, State.reset]

end Sys2Proof.Machine
end

