-- ==== Sys2Proof/Laws/Ops.lean ====
section
/-! SUPPORT. The laws of the instruction buffer (read after write, the canonical form) and one lemma for
each shape of a completed instruction. -/

namespace Sys2Proof.Machine

/-! ## The instruction buffer -/

theorem Memory.read_write (m : Memory) (a : Nat) (v : Word) (i : Nat) :
    Memory.read (Memory.write m a v) i = if i = a then some v else Memory.read m i := by
  induction m with
  | nil => rfl
  | cons p m ih =>
    obtain ⟨b, w⟩ := p
    simp only [Memory.write]
    split
    · simp only [Memory.read]
    · split
      · subst_vars; simp only [Memory.read]; split <;> rfl
      · simp only [Memory.read, ih]; split <;> split <;> simp_all

theorem Memory.mem_write {m : Memory} {a : Nat} {v : Word} {p : Nat × Word}
    (h : p ∈ Memory.write m a v) : p = (a, v) ∨ p ∈ m := by
  induction m with
  | nil => simpa [Memory.write] using h
  | cons q m ih =>
    simp only [Memory.write] at h
    split at h
    · simpa using h
    · split at h
      · simp only [List.mem_cons] at h ⊢; tauto
      · simp only [List.mem_cons] at h ⊢
        rcases h with h | h
        · tauto
        · rcases ih h with h | h <;> tauto

/-- A write keeps the canonical form. -/
theorem Memory.wf_write {m : Memory} (h : m.wf) (a : Nat) (v : Word) : (Memory.write m a v).wf := by
  induction m with
  | nil => simp [Memory.write, Memory.wf]
  | cons p m ih =>
    obtain ⟨b, w⟩ := p
    obtain ⟨hb, hm⟩ := List.pairwise_cons.1 h
    simp only [Memory.write]
    split
    next hab =>
      refine List.pairwise_cons.2 ⟨fun q hq => ?_, h⟩
      rcases List.mem_cons.1 hq with rfl | hq
      · exact hab
      · exact Nat.lt_trans hab (hb q hq)
    next hab =>
      split
      next hab => subst hab; exact List.pairwise_cons.2 ⟨hb, hm⟩
      next hne =>
        refine List.pairwise_cons.2 ⟨fun q hq => ?_, ih hm⟩
        rcases Memory.mem_write hq with rfl | hq
        · show b < a
          omega
        · exact hb q hq

theorem Memory.read_ofWords (base : Nat) (ws : List Word) (i : Nat) :
    Memory.read (Memory.ofWords base ws) i = if base ≤ i then ws[i - base]? else none := by
  induction ws generalizing base with
  | nil => simp [Memory.ofWords, Memory.read]
  | cons w ws ih =>
    simp only [Memory.ofWords, Memory.read, ih]
    by_cases h : i = base
    · simp [h]
    · by_cases h' : base + 1 ≤ i
      · have : i - base = (i - (base + 1)) + 1 := by omega
        simp [h, h', this, show base ≤ i by omega]
      · simp [h, h', show ¬ base ≤ i by omega]

theorem Memory.le_of_mem_ofWords {base : Nat} {ws : List Word} {p : Nat × Word}
    (h : p ∈ Memory.ofWords base ws) : base ≤ p.1 := by
  induction ws generalizing base with
  | nil => simp [Memory.ofWords] at h
  | cons w ws ih =>
    rcases List.mem_cons.1 h with rfl | h
    · exact Nat.le_refl _
    · exact Nat.le_of_succ_le (ih h)

/-- A load gives the canonical form. -/
theorem Memory.wf_ofWords (base : Nat) (ws : List Word) : (Memory.ofWords base ws).wf := by
  induction ws generalizing base with
  | nil => exact List.Pairwise.nil
  | cons w ws ih =>
    exact List.pairwise_cons.2 ⟨fun _ hp => Memory.le_of_mem_ofWords hp, ih (base + 1)⟩

/-- The reset memory has the canonical form. -/
theorem State.reset_imem_wf : State.reset.imem.wf := List.Pairwise.nil

/-- The word `k` of a load that fits stands in cell `k`, and no other cell holds a word. -/
theorem State.load_read (s : State) (ws : List Word) (k : Nat) :
    (s.load ws).imem.read k = (ws.take s.cfg.imemCapacity)[k]? := by
  simp [Memory.read_ofWords]

/-! ## The shapes of a completed instruction -/

/-- All that `writeReg` does: it answers, and these are the fields of the state it answers. -/
theorem writeReg_next (d : RegIdx) (v : Word) (s : State) :
    ∃ t, writeReg d v s = .next t ∧ t.pc = s.pc + 1 ∧
      (∀ r, t.reg r = if r = 0 then 0 else if r = d then v else s.reg r) ∧
      t.hi = s.hi ∧ t.lo = s.lo ∧ t.run = s.run ∧ t.fail = s.fail ∧ t.out = s.out ∧
      t.steps = s.steps ∧ t.imem = s.imem ∧ t.progLen = s.progLen ∧ t.cfg = s.cfg :=
  ⟨_, rfl, by simp⟩

/-- All that `writeAcc` does. -/
theorem writeAcc_next (h l : Word) (s : State) :
    ∃ t, writeAcc h l s = .next t ∧ t.pc = s.pc + 1 ∧
      (∀ r, t.reg r = if r = 0 then 0 else s.reg r) ∧
      t.hi = h ∧ t.lo = l ∧ t.run = s.run ∧ t.fail = s.fail ∧ t.out = s.out ∧
      t.steps = s.steps ∧ t.imem = s.imem ∧ t.progLen = s.progLen ∧ t.cfg = s.cfg :=
  ⟨_, rfl, by simp⟩

/-- All that `jumpTo` does. -/
theorem jumpTo_next (p : Word) (s : State) :
    ∃ t, jumpTo p s = .next t ∧ t.pc = p ∧
      (∀ r, t.reg r = if r = 0 then 0 else s.reg r) ∧
      t.hi = s.hi ∧ t.lo = s.lo ∧ t.run = s.run ∧ t.fail = s.fail ∧ t.out = s.out ∧
      t.steps = s.steps ∧ t.imem = s.imem ∧ t.progLen = s.progLen ∧ t.cfg = s.cfg :=
  ⟨_, rfl, by simp⟩

/-- All that `failWith` does. -/
theorem failWith_next (f : Failure) (s : State) :
    ∃ t, failWith f s = .next t ∧ t.pc = s.pc ∧ (∀ r, t.reg r = s.reg r) ∧
      t.hi = s.hi ∧ t.lo = s.lo ∧ t.run = .halted ∧ t.fail = some f ∧ t.out = s.out ∧
      t.steps = s.steps ∧ t.imem = s.imem ∧ t.progLen = s.progLen ∧ t.cfg = s.cfg :=
  ⟨_, rfl, by simp⟩

end Sys2Proof.Machine
end

