-- ==== Sys2Proof/Laws/Exec.lean ====
section
/-! SUPPORT. Everything an instruction can do, said once: `exec` always answers a next state, and that state
is one of four effects. Also the inversion of each instruction that can fail. -/

namespace Sys2Proof.Machine

theorem BufferKept.of_eq {s t : State} (hm : t.imem = s.imem) (hp : t.progLen = s.progLen)
    (hc : t.cfg = s.cfg) (hn : t.steps = s.steps) : BufferKept s t :=
  ⟨fun _ => by rw [hm], hm, hp, hc, hn⟩

theorem writeReg_frame (d : RegIdx) (v : Word) (s : State) :
    ∃ t, writeReg d v s = .next t ∧ t.pc = s.pc + 1 ∧ OnlyRegWritten s t d v :=
  ⟨_, rfl, rfl, by intro r; simp, rfl, rfl, ⟨rfl, rfl, rfl⟩, .of_eq rfl rfl rfl rfl⟩

theorem writeAcc_frame (h l : Word) (s : State) :
    ∃ t, writeAcc h l s = .next t ∧ t.pc = s.pc + 1 ∧ OnlyAccWritten s t h l :=
  ⟨_, rfl, rfl, by intro r; simp, rfl, rfl, ⟨rfl, rfl, rfl⟩, .of_eq rfl rfl rfl rfl⟩

theorem jumpTo_frame (p : Word) (s : State) :
    ∃ t, jumpTo p s = .next t ∧ t.pc = p ∧ OnlyPcWritten s t :=
  ⟨_, rfl, rfl, by intro r; simp, rfl, rfl, ⟨rfl, rfl, rfl⟩, .of_eq rfl rfl rfl rfl⟩

theorem failWith_frame (f : Failure) (s : State) :
    ∃ t, failWith f s = .next t ∧ OnlyFailed s t f :=
  ⟨_, rfl, fun _ => rfl, rfl, rfl, rfl, rfl, rfl, rfl, .of_eq rfl rfl rfl rfl⟩

/-- The handler completed: at most one general register written, register 0 cleared, no failure, and no
event but one of `syscall`'s (10_state.md R45). -/
structure Completed (i : Instr) (s t : State) : Prop where
  regs : ∃ d v, ∀ r, t.reg r = if r = 0 then 0 else if r = d then v else s.reg r
  run : t.run = s.run
  fail : t.fail = s.fail
  out : t.out = s.out ∨ i = .syscall ∧ ∃ e, t.out = s.out ++ [e]

/-- When a division fails, and for which cause (42_muldiv.md R153). -/
def DivisionFails (s : State) (rs rt : RegIdx) : ArithCause → Prop
  | .divisionByZero => s.reg rt = 0
  | .divisionOverflow => s.reg rs = 0x80000000 ∧ s.reg rt = 0xFFFFFFFF

/-- The four things an instruction can do. -/
inductive Effect (i : Instr) (s t : State) : Prop
  | completed (h : Completed i s t)
  | divisionFailed (c : ArithCause) (rs rt : RegIdx) (hi : i = .div rs rt ∨ i = .divu rs rt)
      (hc : DivisionFails s rs rt c) (h : OnlyFailed s t (.arithmeticFault c s.pc))
  | illegalJump (addr : BitVec 26) (hi : i = .j addr ∨ i = .jal addr) (ha : addrLegal addr = false)
      (h : OnlyFailed s t (.malformedInstruction (encode s.cfg.enc i) s.pc))
  | unknownService (hi : i = .syscall) (h1 : s.reg s.cfg.syscallNumReg ≠ 1)
      (h10 : s.reg s.cfg.syscallNumReg ≠ 10) (h11 : s.reg s.cfg.syscallNumReg ≠ 11)
      (regs : RegsKept s t) (hi' : t.hi = s.hi) (lo : t.lo = s.lo) (pc : t.pc = s.cfg.haltPc)
      (run : t.run = .halted)
      (fail : t.fail = some (.unknownSyscall (s.reg s.cfg.syscallNumReg) s.pc))
      (out : t.out = s.out ++ [.unknownSyscallMessage (s.reg s.cfg.syscallNumReg)])

theorem effect_writeReg (i : Instr) (d : RegIdx) (v : Word) (s : State) :
    ∃ t, writeReg d v s = .next t ∧ BufferKept s t ∧ Effect i s t :=
  let ⟨t, h, _, f⟩ := writeReg_frame d v s
  ⟨t, h, f.buffer, .completed ⟨⟨d, v, f.regs⟩, f.status.run, f.status.fail, .inl f.status.out⟩⟩

theorem regs_of_kept {s t : State} (h : RegsKept s t) :
    ∃ d v, ∀ r, t.reg r = if r = 0 then 0 else if r = d then v else s.reg r :=
  ⟨0, 0, fun r => by rw [h r]; split <;> simp_all⟩

theorem effect_writeAcc (i : Instr) (h l : Word) (s : State) :
    ∃ t, writeAcc h l s = .next t ∧ BufferKept s t ∧ Effect i s t :=
  let ⟨t, e, _, f⟩ := writeAcc_frame h l s
  ⟨t, e, f.buffer, .completed ⟨regs_of_kept f.regs, f.status.run, f.status.fail, .inl f.status.out⟩⟩

theorem effect_jumpTo (i : Instr) (p : Word) (s : State) :
    ∃ t, jumpTo p s = .next t ∧ BufferKept s t ∧ Effect i s t :=
  let ⟨t, e, _, f⟩ := jumpTo_frame p s
  ⟨t, e, f.buffer, .completed ⟨regs_of_kept f.regs, f.status.run, f.status.fail, .inl f.status.out⟩⟩

theorem toInt_eq_zero_iff (a : Word) : s32 a = 0 ↔ a = 0 := by
  rw [← BitVec.toInt_inj]; rfl

theorem toInt_eq_min_iff (a : Word) : s32 a = -2 ^ 31 ↔ a = 0x80000000 := by
  rw [← BitVec.toInt_inj]; rfl

theorem toInt_eq_neg_one_iff (a : Word) : s32 a = -1 ↔ a = 0xFFFFFFFF := by
  rw [← BitVec.toInt_inj]; rfl

/-- What the signed division does (R153): its two failures, or the quotient and the remainder. -/
theorem divide_cases (rs rt : RegIdx) (s : State) :
    (∃ c, DivisionFails s rs rt c ∧ divide rs rt s = failWith (.arithmeticFault c s.pc) s) ∨
    ((∀ c, ¬ DivisionFails s rs rt c) ∧
      divide rs rt s = writeAcc (remainder (s.reg rs) (s.reg rt)) (quotient (s.reg rs) (s.reg rt)) s) := by
  unfold divide
  simp only [toInt_eq_zero_iff, toInt_eq_min_iff, toInt_eq_neg_one_iff]
  split
  next h => exact .inl ⟨.divisionByZero, h, rfl⟩
  next h0 =>
    split
    next h => exact .inl ⟨.divisionOverflow, h, rfl⟩
    next h1 => exact .inr ⟨fun c => by cases c <;> assumption, rfl⟩

theorem effect_divide (i : Instr) (rs rt : RegIdx) (hi : i = .div rs rt ∨ i = .divu rs rt) (s : State) :
    ∃ t, divide rs rt s = .next t ∧ BufferKept s t ∧ Effect i s t := by
  rcases divide_cases rs rt s with ⟨c, hc, h⟩ | ⟨_, h⟩
  · obtain ⟨t, e, f⟩ := failWith_frame (.arithmeticFault c s.pc) s
    exact ⟨t, h.trans e, f.buffer, .divisionFailed c rs rt hi hc f⟩
  · rw [h]
    exact effect_writeAcc i _ _ s

theorem effect_jumpThrough (i : Instr) (addr : BitVec 26) (hi : i = .j addr ∨ i = .jal addr) (s : State) :
    ∃ t, jumpThrough (encode s.cfg.enc i) addr s = .next t ∧ BufferKept s t ∧ Effect i s t := by
  unfold jumpThrough
  split
  · exact effect_jumpTo i _ s
  next h =>
    obtain ⟨t, e, f⟩ := failWith_frame (.malformedInstruction (encode s.cfg.enc i) s.pc) s
    exact ⟨t, e, f.buffer, .illegalJump addr hi (by simpa using h) f⟩

theorem effect_mthi (rd : RegIdx) (s : State) :
    ∃ t, execMthi rd s = .next t ∧ BufferKept s t ∧ Effect (.mthi rd) s t :=
  ⟨_, rfl, .of_eq rfl rfl rfl rfl,
    .completed ⟨regs_of_kept fun r => by simp, rfl, rfl, .inl rfl⟩⟩

theorem effect_mtlo (rd : RegIdx) (s : State) :
    ∃ t, execMtlo rd s = .next t ∧ BufferKept s t ∧ Effect (.mtlo rd) s t :=
  ⟨_, rfl, .of_eq rfl rfl rfl rfl,
    .completed ⟨regs_of_kept fun r => by simp, rfl, rfl, .inl rfl⟩⟩

theorem effect_mul (rd rs rt : RegIdx) (s : State) :
    ∃ t, execMul rd rs rt s = .next t ∧ BufferKept s t ∧ Effect (.mul rd rs rt) s t :=
  ⟨_, rfl, .of_eq rfl rfl rfl rfl,
    .completed ⟨⟨rd, mulWrap (s.reg rs) (s.reg rt), fun r => by simp⟩, rfl, rfl, .inl rfl⟩⟩

theorem effect_jalr (rd rs : RegIdx) (s : State) :
    ∃ t, execJalr rd rs s = .next t ∧ BufferKept s t ∧ Effect (.jalr rd rs) s t :=
  ⟨_, rfl, .of_eq rfl rfl rfl rfl,
    .completed ⟨⟨rd, s.pc, fun r => by simp⟩, rfl, rfl, .inl rfl⟩⟩

theorem effect_syscall (s : State) :
    ∃ t, execSyscall s = .next t ∧ BufferKept s t ∧ Effect .syscall s t := by
  unfold execSyscall
  simp only
  split
  · exact ⟨_, rfl, .of_eq rfl rfl rfl rfl,
      .completed ⟨regs_of_kept fun r => by simp, rfl, rfl, .inr ⟨rfl, _, rfl⟩⟩⟩
  · split
    · exact effect_jumpTo _ _ s
    · split
      · exact ⟨_, rfl, .of_eq rfl rfl rfl rfl,
          .completed ⟨regs_of_kept fun r => by simp, rfl, rfl, .inr ⟨rfl, _, rfl⟩⟩⟩
      · exact ⟨_, rfl, .of_eq rfl rfl rfl rfl,
          .unknownService rfl ‹_› ‹_› ‹_› (fun r => by simp) rfl rfl rfl rfl rfl rfl⟩

/-- Everything `exec` can do: it answers a next state, it leaves the buffer, the configuration and the step
count alone, and the rest is one of the four effects. -/
theorem exec_effect (i : Instr) (s : State) :
    ∃ t, exec i s = .next t ∧ BufferKept s t ∧ Effect i s t := by
  cases i with
  | sll _ _ _ => exact effect_writeReg _ _ _ s
  | srl _ _ _ => exact effect_writeReg _ _ _ s
  | sra _ _ _ => exact effect_writeReg _ _ _ s
  | sllv _ _ _ => exact effect_writeReg _ _ _ s
  | srlv _ _ _ => exact effect_writeReg _ _ _ s
  | srav _ _ _ => exact effect_writeReg _ _ _ s
  | jr _ => exact effect_jumpTo _ _ s
  | jalr rd rs => exact effect_jalr rd rs s
  | syscall => exact effect_syscall s
  | brk _ => exact effect_jumpTo _ _ s
  | mfhi _ => exact effect_writeReg _ _ _ s
  | mthi rd => exact effect_mthi rd s
  | mflo _ => exact effect_writeReg _ _ _ s
  | mtlo rd => exact effect_mtlo rd s
  | mult _ _ => exact effect_writeAcc _ _ _ s
  | multu _ _ => exact effect_writeAcc _ _ _ s
  | div rs rt => exact effect_divide _ rs rt (.inl rfl) s
  | divu rs rt => exact effect_divide _ rs rt (.inr rfl) s
  | mul rd rs rt => exact effect_mul rd rs rt s
  | add _ _ _ => exact effect_writeReg _ _ _ s
  | addu _ _ _ => exact effect_writeReg _ _ _ s
  | sub _ _ _ => exact effect_writeReg _ _ _ s
  | subu _ _ _ => exact effect_writeReg _ _ _ s
  | and _ _ _ => exact effect_writeReg _ _ _ s
  | or _ _ _ => exact effect_writeReg _ _ _ s
  | xor _ _ _ => exact effect_writeReg _ _ _ s
  | nor _ _ _ => exact effect_writeReg _ _ _ s
  | slt _ _ _ => exact effect_writeReg _ _ _ s
  | sltu _ _ _ => exact effect_writeReg _ _ _ s
  | bltz _ _ => exact effect_jumpTo _ _ s
  | bgez _ _ => exact effect_jumpTo _ _ s
  | j addr => exact effect_jumpThrough _ addr (.inl rfl) s
  | jal addr => exact effect_jumpThrough _ addr (.inr rfl) s
  | beq _ _ _ => exact effect_jumpTo _ _ s
  | bne _ _ _ => exact effect_jumpTo _ _ s
  | blez _ _ => exact effect_jumpTo _ _ s
  | bgtz _ _ => exact effect_jumpTo _ _ s
  | addi _ _ _ => exact effect_writeReg _ _ _ s
  | addiu _ _ _ => exact effect_writeReg _ _ _ s
  | slti _ _ _ => exact effect_writeReg _ _ _ s
  | sltiu _ _ _ => exact effect_writeReg _ _ _ s
  | andi _ _ _ => exact effect_writeReg _ _ _ s
  | ori _ _ _ => exact effect_writeReg _ _ _ s
  | xori _ _ _ => exact effect_writeReg _ _ _ s
  | lui _ _ => exact effect_writeReg _ _ _ s
  | lb _ _ _ => exact effect_writeReg _ _ _ s
  | lh _ _ _ => exact effect_writeReg _ _ _ s
  | lw _ _ _ => exact effect_writeReg _ _ _ s
  | sb _ _ _ => exact effect_writeReg _ _ _ s
  | sh _ _ _ => exact effect_writeReg _ _ _ s
  | sw _ _ _ => exact effect_writeReg _ _ _ s

end Sys2Proof.Machine
end

