-- ==== Sys2Proof/Laws/PerInstr.lean ====
section
/-! SUPPORT. One lemma per constructor: the word an instruction is encoded as has the key of its row, and
its fields give the instruction back (30_encoding.md R78, R93). -/

namespace Sys2Proof.Laws.FieldsReturn

/-- A well-formed instruction's word has its row's key and its operands in their fields, whatever the
opcode assignment. -/
def Statement (i : Instr) : Prop :=
  i.wellFormed = true → ∀ e : Enc,
    e.keyHolds (encode e i) i.mnemonic ∧ assemble (encode e i) i.mnemonic = i

/-- A legal `addr` leaves the bits the jump mask examines zero (R88). -/
theorem addr_high_zero (op : BitVec 6) {addr : BitVec 26} (h : addrLegal addr = true) :
    (encodeJ op addr).extractLsb' 5 21 = 0 := by
  apply BitVec.eq_of_toNat_eq
  have : addr.toNat ≤ 31 := by simpa [addrLegal] using h
  rw [extract_toNat, encodeJ_toNat]
  simp
  omega

/-- The sub-key of a row admits the `rt` field the encoder writes. -/
theorem rtAdmitted_getD (k : Option (BitVec 5)) : rtAdmitted k (k.getD 0) = true := by
  cases k <;> simp [rtAdmitted]

theorem sll (rd rt : RegIdx) (shamt : BitVec 5) : Statement (.sll rd rt shamt) := fun _ e =>
  ⟨⟨opField_encodeR .., functField_encodeR ..⟩, by
    show Instr.sll (rdField (encodeR ..)) (rtField (encodeR ..)) (shamtField (encodeR ..)) = _
    rw [rdField_encodeR, rtField_encodeR, shamtField_encodeR]⟩

theorem srl (rd rs : RegIdx) (shamt : BitVec 5) : Statement (.srl rd rs shamt) := fun _ e =>
  ⟨⟨opField_encodeR .., functField_encodeR ..⟩, by
    show Instr.srl (rdField (encodeR ..)) (rsField (encodeR ..)) (shamtField (encodeR ..)) = _
    rw [rdField_encodeR, rsField_encodeR, shamtField_encodeR]⟩

theorem sra (rd rt : RegIdx) (shamt : BitVec 5) : Statement (.sra rd rt shamt) := fun _ e =>
  ⟨⟨opField_encodeR .., functField_encodeR ..⟩, by
    show Instr.sra (rdField (encodeR ..)) (rtField (encodeR ..)) (shamtField (encodeR ..)) = _
    rw [rdField_encodeR, rtField_encodeR, shamtField_encodeR]⟩

theorem sllv (rd rt rs : RegIdx) : Statement (.sllv rd rt rs) := fun _ e =>
  ⟨⟨opField_encodeR .., functField_encodeR ..⟩, by
    show Instr.sllv (rdField (encodeR ..)) (rtField (encodeR ..)) (rsField (encodeR ..)) = _
    rw [rdField_encodeR, rtField_encodeR, rsField_encodeR]⟩

theorem srlv (rd rt rs : RegIdx) : Statement (.srlv rd rt rs) := fun _ e =>
  ⟨⟨opField_encodeR .., functField_encodeR ..⟩, by
    show Instr.srlv (rdField (encodeR ..)) (rtField (encodeR ..)) (rsField (encodeR ..)) = _
    rw [rdField_encodeR, rtField_encodeR, rsField_encodeR]⟩

theorem srav (rd rt rs : RegIdx) : Statement (.srav rd rt rs) := fun _ e =>
  ⟨⟨opField_encodeR .., functField_encodeR ..⟩, by
    show Instr.srav (rdField (encodeR ..)) (rtField (encodeR ..)) (rsField (encodeR ..)) = _
    rw [rdField_encodeR, rtField_encodeR, rsField_encodeR]⟩

theorem jr (rs : RegIdx) : Statement (.jr rs) := fun _ e =>
  ⟨⟨opField_encodeR .., functField_encodeR ..⟩, by
    show Instr.jr (rsField (encodeR ..)) = _
    rw [rsField_encodeR]⟩

theorem jalr (rd rs : RegIdx) : Statement (.jalr rd rs) := fun _ e =>
  ⟨⟨opField_encodeR .., functField_encodeR ..⟩, by
    show Instr.jalr (rdField (encodeR ..)) (rsField (encodeR ..)) = _
    rw [rdField_encodeR, rsField_encodeR]⟩

theorem syscall : Statement (.syscall) := fun _ _ => ⟨⟨opField_encodeR .., functField_encodeR ..⟩, rfl⟩

theorem brk (rd : RegIdx) : Statement (.brk rd) := fun _ e =>
  ⟨⟨opField_encodeR .., functField_encodeR ..⟩, by
    show Instr.brk (rdField (encodeR ..)) = _
    rw [rdField_encodeR]⟩

theorem mfhi (rd : RegIdx) : Statement (.mfhi rd) := fun _ e =>
  ⟨⟨opField_encodeR .., functField_encodeR ..⟩, by
    show Instr.mfhi (rdField (encodeR ..)) = _
    rw [rdField_encodeR]⟩

theorem mthi (rd : RegIdx) : Statement (.mthi rd) := fun _ e =>
  ⟨⟨opField_encodeR .., functField_encodeR ..⟩, by
    show Instr.mthi (rdField (encodeR ..)) = _
    rw [rdField_encodeR]⟩

theorem mflo (rd : RegIdx) : Statement (.mflo rd) := fun _ e =>
  ⟨⟨opField_encodeR .., functField_encodeR ..⟩, by
    show Instr.mflo (rdField (encodeR ..)) = _
    rw [rdField_encodeR]⟩

theorem mtlo (rd : RegIdx) : Statement (.mtlo rd) := fun _ e =>
  ⟨⟨opField_encodeR .., functField_encodeR ..⟩, by
    show Instr.mtlo (rdField (encodeR ..)) = _
    rw [rdField_encodeR]⟩

theorem mult (rs rt : RegIdx) : Statement (.mult rs rt) := fun _ e =>
  ⟨⟨opField_encodeR .., functField_encodeR ..⟩, by
    show Instr.mult (rsField (encodeR ..)) (rtField (encodeR ..)) = _
    rw [rsField_encodeR, rtField_encodeR]⟩

theorem multu (rs rt : RegIdx) : Statement (.multu rs rt) := fun _ e =>
  ⟨⟨opField_encodeR .., functField_encodeR ..⟩, by
    show Instr.multu (rsField (encodeR ..)) (rtField (encodeR ..)) = _
    rw [rsField_encodeR, rtField_encodeR]⟩

theorem div (rs rt : RegIdx) : Statement (.div rs rt) := fun _ e =>
  ⟨⟨opField_encodeR .., functField_encodeR ..⟩, by
    show Instr.div (rsField (encodeR ..)) (rtField (encodeR ..)) = _
    rw [rsField_encodeR, rtField_encodeR]⟩

theorem divu (rs rt : RegIdx) : Statement (.divu rs rt) := fun _ e =>
  ⟨⟨opField_encodeR .., functField_encodeR ..⟩, by
    show Instr.divu (rsField (encodeR ..)) (rtField (encodeR ..)) = _
    rw [rsField_encodeR, rtField_encodeR]⟩

theorem mul (rd rs rt : RegIdx) : Statement (.mul rd rs rt) := fun _ e =>
  ⟨⟨opField_encodeR .., functField_encodeR ..⟩, by
    show Instr.mul (rdField (encodeR ..)) (rsField (encodeR ..)) (rtField (encodeR ..)) = _
    rw [rdField_encodeR, rsField_encodeR, rtField_encodeR]⟩

theorem add (rd rs rt : RegIdx) : Statement (.add rd rs rt) := fun _ e =>
  ⟨⟨opField_encodeR .., functField_encodeR ..⟩, by
    show Instr.add (rdField (encodeR ..)) (rsField (encodeR ..)) (rtField (encodeR ..)) = _
    rw [rdField_encodeR, rsField_encodeR, rtField_encodeR]⟩

theorem addu (rd rs rt : RegIdx) : Statement (.addu rd rs rt) := fun _ e =>
  ⟨⟨opField_encodeR .., functField_encodeR ..⟩, by
    show Instr.addu (rdField (encodeR ..)) (rsField (encodeR ..)) (rtField (encodeR ..)) = _
    rw [rdField_encodeR, rsField_encodeR, rtField_encodeR]⟩

theorem sub (rd rs rt : RegIdx) : Statement (.sub rd rs rt) := fun _ e =>
  ⟨⟨opField_encodeR .., functField_encodeR ..⟩, by
    show Instr.sub (rdField (encodeR ..)) (rsField (encodeR ..)) (rtField (encodeR ..)) = _
    rw [rdField_encodeR, rsField_encodeR, rtField_encodeR]⟩

theorem subu (rd rs rt : RegIdx) : Statement (.subu rd rs rt) := fun _ e =>
  ⟨⟨opField_encodeR .., functField_encodeR ..⟩, by
    show Instr.subu (rdField (encodeR ..)) (rsField (encodeR ..)) (rtField (encodeR ..)) = _
    rw [rdField_encodeR, rsField_encodeR, rtField_encodeR]⟩

theorem and (rd rs rt : RegIdx) : Statement (.and rd rs rt) := fun _ e =>
  ⟨⟨opField_encodeR .., functField_encodeR ..⟩, by
    show Instr.and (rdField (encodeR ..)) (rsField (encodeR ..)) (rtField (encodeR ..)) = _
    rw [rdField_encodeR, rsField_encodeR, rtField_encodeR]⟩

theorem or (rd rs rt : RegIdx) : Statement (.or rd rs rt) := fun _ e =>
  ⟨⟨opField_encodeR .., functField_encodeR ..⟩, by
    show Instr.or (rdField (encodeR ..)) (rsField (encodeR ..)) (rtField (encodeR ..)) = _
    rw [rdField_encodeR, rsField_encodeR, rtField_encodeR]⟩

theorem xor (rd rs rt : RegIdx) : Statement (.xor rd rs rt) := fun _ e =>
  ⟨⟨opField_encodeR .., functField_encodeR ..⟩, by
    show Instr.xor (rdField (encodeR ..)) (rsField (encodeR ..)) (rtField (encodeR ..)) = _
    rw [rdField_encodeR, rsField_encodeR, rtField_encodeR]⟩

theorem nor (rd rs rt : RegIdx) : Statement (.nor rd rs rt) := fun _ e =>
  ⟨⟨opField_encodeR .., functField_encodeR ..⟩, by
    show Instr.nor (rdField (encodeR ..)) (rsField (encodeR ..)) (rtField (encodeR ..)) = _
    rw [rdField_encodeR, rsField_encodeR, rtField_encodeR]⟩

theorem slt (rd rs rt : RegIdx) : Statement (.slt rd rs rt) := fun _ e =>
  ⟨⟨opField_encodeR .., functField_encodeR ..⟩, by
    show Instr.slt (rdField (encodeR ..)) (rsField (encodeR ..)) (rtField (encodeR ..)) = _
    rw [rdField_encodeR, rsField_encodeR, rtField_encodeR]⟩

theorem sltu (rd rs rt : RegIdx) : Statement (.sltu rd rs rt) := fun _ e =>
  ⟨⟨opField_encodeR .., functField_encodeR ..⟩, by
    show Instr.sltu (rdField (encodeR ..)) (rsField (encodeR ..)) (rtField (encodeR ..)) = _
    rw [rdField_encodeR, rsField_encodeR, rtField_encodeR]⟩

theorem bltz (rs : RegIdx) (imm16 : BitVec 16) : Statement (.bltz rs imm16) := fun _ e =>
  ⟨⟨opField_encodeI .., by
    show rtAdmitted e.bltzRt (rtField (encodeI ..)) = true
    rw [rtField_encodeI]; exact rtAdmitted_getD _⟩, by
    show Instr.bltz (rsField (encodeI ..)) (imm16Field (encodeI ..)) = _
    rw [rsField_encodeI, imm16Field_encodeI]⟩

theorem bgez (rs : RegIdx) (imm16 : BitVec 16) : Statement (.bgez rs imm16) := fun _ e =>
  ⟨⟨opField_encodeI .., by
    show rtAdmitted e.bgezRt (rtField (encodeI ..)) = true
    rw [rtField_encodeI]; exact rtAdmitted_getD _⟩, by
    show Instr.bgez (rsField (encodeI ..)) (imm16Field (encodeI ..)) = _
    rw [rsField_encodeI, imm16Field_encodeI]⟩

theorem j (addr : BitVec 26) : Statement (.j addr) := fun h e =>
  ⟨⟨opField_encodeJ .., addr_high_zero _ h⟩, by
    show Instr.j (addrField (encodeJ ..)) = _
    rw [addrField_encodeJ]⟩

theorem jal (addr : BitVec 26) : Statement (.jal addr) := fun h e =>
  ⟨⟨opField_encodeJ .., addr_high_zero _ h⟩, by
    show Instr.jal (addrField (encodeJ ..)) = _
    rw [addrField_encodeJ]⟩

theorem beq (rs rt : RegIdx) (imm16 : BitVec 16) : Statement (.beq rs rt imm16) := fun _ e =>
  ⟨⟨opField_encodeI .., rfl⟩, by
    show Instr.beq (rsField (encodeI ..)) (rtField (encodeI ..)) (imm16Field (encodeI ..)) = _
    rw [rsField_encodeI, rtField_encodeI, imm16Field_encodeI]⟩

theorem bne (rs rt : RegIdx) (imm16 : BitVec 16) : Statement (.bne rs rt imm16) := fun _ e =>
  ⟨⟨opField_encodeI .., rfl⟩, by
    show Instr.bne (rsField (encodeI ..)) (rtField (encodeI ..)) (imm16Field (encodeI ..)) = _
    rw [rsField_encodeI, rtField_encodeI, imm16Field_encodeI]⟩

theorem blez (rs : RegIdx) (imm16 : BitVec 16) : Statement (.blez rs imm16) := fun _ e =>
  ⟨⟨opField_encodeI .., rfl⟩, by
    show Instr.blez (rsField (encodeI ..)) (imm16Field (encodeI ..)) = _
    rw [rsField_encodeI, imm16Field_encodeI]⟩

theorem bgtz (rs : RegIdx) (imm16 : BitVec 16) : Statement (.bgtz rs imm16) := fun _ e =>
  ⟨⟨opField_encodeI .., rfl⟩, by
    show Instr.bgtz (rsField (encodeI ..)) (imm16Field (encodeI ..)) = _
    rw [rsField_encodeI, imm16Field_encodeI]⟩

theorem addi (rt rs : RegIdx) (imm16 : BitVec 16) : Statement (.addi rt rs imm16) := fun _ e =>
  ⟨⟨opField_encodeI .., rfl⟩, by
    show Instr.addi (rtField (encodeI ..)) (rsField (encodeI ..)) (imm16Field (encodeI ..)) = _
    rw [rtField_encodeI, rsField_encodeI, imm16Field_encodeI]⟩

theorem addiu (rt rs : RegIdx) (imm16 : BitVec 16) : Statement (.addiu rt rs imm16) := fun _ e =>
  ⟨⟨opField_encodeI .., rfl⟩, by
    show Instr.addiu (rtField (encodeI ..)) (rsField (encodeI ..)) (imm16Field (encodeI ..)) = _
    rw [rtField_encodeI, rsField_encodeI, imm16Field_encodeI]⟩

theorem slti (rt rs : RegIdx) (imm16 : BitVec 16) : Statement (.slti rt rs imm16) := fun _ e =>
  ⟨⟨opField_encodeI .., rfl⟩, by
    show Instr.slti (rtField (encodeI ..)) (rsField (encodeI ..)) (imm16Field (encodeI ..)) = _
    rw [rtField_encodeI, rsField_encodeI, imm16Field_encodeI]⟩

theorem sltiu (rt rs : RegIdx) (imm16 : BitVec 16) : Statement (.sltiu rt rs imm16) := fun _ e =>
  ⟨⟨opField_encodeI .., rfl⟩, by
    show Instr.sltiu (rtField (encodeI ..)) (rsField (encodeI ..)) (imm16Field (encodeI ..)) = _
    rw [rtField_encodeI, rsField_encodeI, imm16Field_encodeI]⟩

theorem andi (rt rs : RegIdx) (imm16 : BitVec 16) : Statement (.andi rt rs imm16) := fun _ e =>
  ⟨⟨opField_encodeI .., rfl⟩, by
    show Instr.andi (rtField (encodeI ..)) (rsField (encodeI ..)) (imm16Field (encodeI ..)) = _
    rw [rtField_encodeI, rsField_encodeI, imm16Field_encodeI]⟩

theorem ori (rt rs : RegIdx) (imm16 : BitVec 16) : Statement (.ori rt rs imm16) := fun _ e =>
  ⟨⟨opField_encodeI .., rfl⟩, by
    show Instr.ori (rtField (encodeI ..)) (rsField (encodeI ..)) (imm16Field (encodeI ..)) = _
    rw [rtField_encodeI, rsField_encodeI, imm16Field_encodeI]⟩

theorem xori (rt rs : RegIdx) (imm16 : BitVec 16) : Statement (.xori rt rs imm16) := fun _ e =>
  ⟨⟨opField_encodeI .., rfl⟩, by
    show Instr.xori (rtField (encodeI ..)) (rsField (encodeI ..)) (imm16Field (encodeI ..)) = _
    rw [rtField_encodeI, rsField_encodeI, imm16Field_encodeI]⟩

theorem lui (rt : RegIdx) (imm16 : BitVec 16) : Statement (.lui rt imm16) := fun _ e =>
  ⟨⟨opField_encodeI .., rfl⟩, by
    show Instr.lui (rtField (encodeI ..)) (imm16Field (encodeI ..)) = _
    rw [rtField_encodeI, imm16Field_encodeI]⟩

theorem lb (rt rs : RegIdx) (imm16 : BitVec 16) : Statement (.lb rt imm16 rs) := fun _ e =>
  ⟨⟨opField_encodeI .., rfl⟩, by
    show Instr.lb (rtField (encodeI ..)) (imm16Field (encodeI ..)) (rsField (encodeI ..)) = _
    rw [rtField_encodeI, imm16Field_encodeI, rsField_encodeI]⟩

theorem lh (rt rs : RegIdx) (imm16 : BitVec 16) : Statement (.lh rt imm16 rs) := fun _ e =>
  ⟨⟨opField_encodeI .., rfl⟩, by
    show Instr.lh (rtField (encodeI ..)) (imm16Field (encodeI ..)) (rsField (encodeI ..)) = _
    rw [rtField_encodeI, imm16Field_encodeI, rsField_encodeI]⟩

theorem lw (rt rs : RegIdx) (imm16 : BitVec 16) : Statement (.lw rt imm16 rs) := fun _ e =>
  ⟨⟨opField_encodeI .., rfl⟩, by
    show Instr.lw (rtField (encodeI ..)) (imm16Field (encodeI ..)) (rsField (encodeI ..)) = _
    rw [rtField_encodeI, imm16Field_encodeI, rsField_encodeI]⟩

theorem sb (rt rs : RegIdx) (imm16 : BitVec 16) : Statement (.sb rt imm16 rs) := fun _ e =>
  ⟨⟨opField_encodeI .., rfl⟩, by
    show Instr.sb (rtField (encodeI ..)) (imm16Field (encodeI ..)) (rsField (encodeI ..)) = _
    rw [rtField_encodeI, imm16Field_encodeI, rsField_encodeI]⟩

theorem sh (rt rs : RegIdx) (imm16 : BitVec 16) : Statement (.sh rt imm16 rs) := fun _ e =>
  ⟨⟨opField_encodeI .., rfl⟩, by
    show Instr.sh (rtField (encodeI ..)) (imm16Field (encodeI ..)) (rsField (encodeI ..)) = _
    rw [rtField_encodeI, imm16Field_encodeI, rsField_encodeI]⟩

theorem sw (rt rs : RegIdx) (imm16 : BitVec 16) : Statement (.sw rt imm16 rs) := fun _ e =>
  ⟨⟨opField_encodeI .., rfl⟩, by
    show Instr.sw (rtField (encodeI ..)) (imm16Field (encodeI ..)) (rsField (encodeI ..)) = _
    rw [rtField_encodeI, imm16Field_encodeI, rsField_encodeI]⟩

end Sys2Proof.Laws.FieldsReturn
end

