-- ==== Sys2Proof/Laws/Step.lean ====
section
/-! SUPPORT. What one step can do: its inversion, and the step onto an instruction placed where the next
step fetches it. -/

namespace Sys2Proof.Machine

theorem admissible_iff (s : State) :
    s.admissible = true ↔ s.cfg.wf = true ∧ s.progLen ≤ s.cfg.imemCapacity := by
  simp [State.admissible]

/-- The halt test (70_reset_and_hazards.md R241). -/
theorem pcOutOfRange_iff (s : State) :
    s.pcOutOfRange = true ↔ s.progLen ≤ s.pc.toNat ∨ s.cfg.haltPc.toNat ≤ s.pc.toNat := by
  simp [State.pcOutOfRange]

/-- Everything a step that answers a next state can have done (R240). -/
theorem step_cases {s t : State} (h : step s = .next t) :
    s.admissible = true ∧ s.run = .running ∧
      ((s.pcOutOfRange = true ∧ t = s.halt) ∨
        (s.pcOutOfRange = false ∧ ∃ w, s.fetch = some w ∧
          ((∃ r, decode s.cfg.enc w = .error r ∧
              t = s.tick.raise (.malformedInstruction w s.pc)) ∨
            (∃ i, decode s.cfg.enc w = .ok i ∧ exec i s.tick = .next t)))) := by
  unfold step at h
  split at h
  next hadm =>
    refine ⟨hadm, ?_⟩
    split at h
    · cases h
    next hrun =>
      refine ⟨hrun, ?_⟩
      split at h
      next hout => injection h with h; exact .inl ⟨hout, h.symm⟩
      next hout =>
        refine .inr ⟨by simpa using hout, ?_⟩
        split at h
        · cases h
        next w hw =>
          refine ⟨w, hw, ?_⟩
          split at h
          next r hr => injection h with h; exact .inl ⟨r, hr, h.symm⟩
          next i hi => exact .inr ⟨i, hi, h⟩
  · cases h

/-- A step in range runs the instruction the decoder reads from the word at `pc` (R240, R243). -/
theorem step_of_decode {s : State} {w : Word} {i : Instr} (hadm : s.admissible = true)
    (hrun : s.run = .running) (hpc : s.pcOutOfRange = false) (hw : s.fetch = some w)
    (hi : decode s.cfg.enc w = .ok i) : step s = exec i s.tick := by
  simp [step, hadm, hrun, hpc, hw, hi]

theorem config_wf_iff (c : Config) : c.wf = true ↔
    1 ≤ c.imemCapacity ∧ c.imemCapacity ≤ c.haltPc.toNat ∧ c.enc.wf = true := by
  simp [Config.wf, and_assoc]

theorem Config.default_wf : Config.default.wf = true := by decide

theorem usableCfg_wf (s : State) : s.usableCfg.wf = true := by
  unfold State.usableCfg
  split
  · assumption
  · exact Config.default_wf

theorem fetchIndex_lt (s : State) : s.fetchIndex.toNat < s.usableCfg.imemCapacity := by
  unfold State.fetchIndex
  split
  · assumption
  · exact ((config_wf_iff _).1 (usableCfg_wf s)).1

/-- `placeWord` gives a state from which the next step fetches the word placed. -/
theorem placeWord_ready (s : State) (w : Word) :
    (s.placeWord w).admissible = true ∧ (s.placeWord w).run = .running ∧
      (s.placeWord w).pcOutOfRange = false ∧ (s.placeWord w).fetch = some w := by
  obtain ⟨_, hhalt, _⟩ := (config_wf_iff _).1 (usableCfg_wf s)
  have hidx := fetchIndex_lt s
  refine ⟨?_, rfl, ?_, ?_⟩
  · rw [admissible_iff, State.placeWord_cfg, State.placeWord_progLen]
    exact ⟨usableCfg_wf s, by omega⟩
  · rw [← Bool.not_eq_true, pcOutOfRange_iff, State.placeWord_progLen, State.placeWord_pc,
      State.placeWord_cfg]
    omega
  · rw [State.fetch, State.placeWord_imem, State.placeWord_pc, Memory.read_write, if_pos rfl]

/-- The step onto `withFetchWord` runs exactly the instruction the decoder reads from that word. -/
theorem step_withFetchWord (s : State) (nbits w : Nat) (i : Instr)
    (hi : decode (s.withFetchWord nbits w).cfg.enc (BitVec.ofNat 32 (w % 2 ^ nbits)) = .ok i) :
    step (s.withFetchWord nbits w) = exec i (s.withFetchWord nbits w).tick :=
  let ⟨h1, h2, h3, h4⟩ := placeWord_ready s (BitVec.ofNat 32 (w % 2 ^ nbits))
  step_of_decode h1 h2 h3 h4 hi

end Sys2Proof.Machine
end

