-- ==== Sys2Proof/Laws/Words.lean ====
section
/-! SUPPORT. The words the spec's rules write are encoded words, and each is classified and decoded as the row
its key names. -/

namespace Sys2Proof.Machine

/-! ## The words of the rules -/

theorem wordR_eq (f : BitVec 6) (rs rt rd : RegIdx) (shamt : BitVec 5) :
    wordR (encodeR 0 0 0 0 0 f) rs rt rd shamt = encodeR 0 rs rt rd shamt f := by
  apply BitVec.eq_of_getLsbD_eq
  intro k hk
  simp only [wordR, encodeR, BitVec.getLsbD_or, BitVec.getLsbD_append, BitVec.getLsbD_shiftLeft,
    BitVec.getLsbD_setWidth]
  interval_cases k <;> simp

theorem wordI_eq (p : BitVec 6) (rs rt : RegIdx) (imm16 : BitVec 16) :
    wordI (encodeI p 0 0 0) rs rt imm16 = encodeI p rs rt imm16 := by
  apply BitVec.eq_of_getLsbD_eq
  intro k hk
  simp only [wordI, encodeI, BitVec.getLsbD_or, BitVec.getLsbD_append, BitVec.getLsbD_shiftLeft,
    BitVec.getLsbD_setWidth]
  interval_cases k <;> simp

theorem wordI_key_eq (p : BitVec 6) (k : BitVec 5) (rs : RegIdx) (imm16 : BitVec 16) :
    wordI (encodeI p 0 k 0) rs 0 imm16 = encodeI p rs k imm16 := by
  apply BitVec.eq_of_getLsbD_eq
  intro j hj
  simp only [wordI, encodeI, BitVec.getLsbD_or, BitVec.getLsbD_append, BitVec.getLsbD_shiftLeft,
    BitVec.getLsbD_setWidth]
  interval_cases j <;> simp

theorem wordJ_eq (p : BitVec 6) (addr : BitVec 26) :
    wordJ (encodeJ p 0) addr = encodeJ p addr := by
  apply BitVec.eq_of_getLsbD_eq
  intro k hk
  simp only [wordJ, encodeJ, BitVec.getLsbD_or, BitVec.getLsbD_append, BitVec.getLsbD_setWidth]
  interval_cases k <;> simp

/-! ## Classifying a word that has a row's key -/

/-- A word with the key of a row is valid and of that row's family, where no PSEUDO row shadows it. -/
theorem classify_of_keyHolds {e : Enc} (hwf : e.wf = true) {w : Word} {m : Mnemonic}
    (h : e.keyHolds w m) (hs : m.family = .register → e.funct m ∉ e.pseudoFuncts) :
    classify e w = ⟨some m.family, true⟩ := by
  have F := Enc.wfFacts hwf
  have mem {f : Family} (hm : m.family = f) : m ∈ Mnemonic.ofFamily f := hm ▸ mem_ofFamily m
  unfold Enc.keyHolds at h
  unfold classify
  cases hf : m.family <;> simp only [hf] at h <;> obtain ⟨h1, h2⟩ := h
  case pseudo =>
    rw [if_pos ⟨h1, h2 ▸ List.mem_map.2 ⟨m, mem hf, rfl⟩⟩]
  case register =>
    rw [if_neg fun h => hs hf (h2 ▸ h.2), if_pos h1,
      decide_eq_true (h2 ▸ List.mem_map.2 ⟨m, mem hf, rfl⟩)]
  case jump =>
    have h0 : opField w ≠ 0 := h1 ▸ F.opNonzero m (.inl hf)
    rw [if_neg fun h => h0 h.1, if_neg h0, if_pos (h1 ▸ List.mem_map.2 ⟨m, mem hf, rfl⟩),
      decide_eq_true h2]
  case immediate =>
    have h0 : opField w ≠ 0 := h1 ▸ F.opNonzero m (.inr hf)
    have hj : opField w ∉ e.jumpOps := by
      intro hj
      obtain ⟨m', hm', he⟩ := List.mem_map.1 hj
      exact F.jumpImm m' m (family_of_mem hm') hf (he.trans h1)
    rw [if_neg fun h => h0 h.1, if_neg h0, if_neg hj,
      if_pos (h1 ▸ List.mem_map.2 ⟨m, mem hf, rfl⟩),
      List.any_eq_true.2 ⟨m, mem hf, by simp [h1, h2]⟩]

theorem default_not_shadowed (m : Mnemonic) :
    m.family = .register → Enc.default.funct m ∉ Enc.default.pseudoFuncts := by
  cases m <;> decide

/-- Under `ENC_DEFAULT` a word with the key of a row reads as that row. -/
theorem readsAs_of_keyHolds {w : Word} {m : Mnemonic} (h : Enc.default.keyHolds w m) :
    ReadsAs w m.family (assemble w m) :=
  ⟨classify_of_keyHolds Enc.default_wf h (default_not_shadowed m), decode_default h⟩

/-! ## Reading the words of the rules -/

theorem readsAs_wordR {base : Word} {m : Mnemonic} {rs rt rd : RegIdx} {shamt : BitVec 5} {i : Instr}
    (hf : m.family = .register ∨ m.family = .pseudo)
    (hb : base = encodeR 0 0 0 0 0 (Enc.default.funct m))
    (hi : assemble (encodeR 0 rs rt rd shamt (Enc.default.funct m)) m = i) :
    ReadsAs (wordR base rs rt rd shamt) m.family i := by
  subst hb hi
  rw [wordR_eq]
  apply readsAs_of_keyHolds
  rcases hf with hf | hf <;> simp [Enc.keyHolds, hf]

theorem readsAs_wordI {base : Word} {m : Mnemonic} {rs rt : RegIdx} {imm16 : BitVec 16} {i : Instr}
    (hf : m.family = .immediate) (hk : Enc.default.rtKey m = none)
    (hb : base = encodeI (Enc.default.op m) 0 0 0)
    (hi : assemble (encodeI (Enc.default.op m) rs rt imm16) m = i) :
    ReadsAs (wordI base rs rt imm16) .immediate i := by
  subst hb hi
  rw [wordI_eq, ← hf]
  apply readsAs_of_keyHolds
  simp [Enc.keyHolds, hf, hk, rtAdmitted]

theorem readsAs_wordI_key {base : Word} {m : Mnemonic} {k : BitVec 5} {rs : RegIdx} {imm16 : BitVec 16}
    {i : Instr} (hf : m.family = .immediate) (hk : Enc.default.rtKey m = some k)
    (hb : base = encodeI (Enc.default.op m) 0 k 0)
    (hi : assemble (encodeI (Enc.default.op m) rs k imm16) m = i) :
    ReadsAs (wordI base rs 0 imm16) .immediate i := by
  subst hb hi
  rw [wordI_key_eq, ← hf]
  apply readsAs_of_keyHolds
  simp [Enc.keyHolds, hf, hk, rtAdmitted]

end Sys2Proof.Machine
end

