-- ==== Sys2Proof/Tests/Slice0.lean ====
section
/-! SUPPORT. The model's own tests. Expected results come from the spec: 95_test_vectors.md sections 1 to 4 (its
case names are kept), the rows of R93, and the rules named. After them, for every obligation that has
hypotheses, a concrete input that meets them. -/

namespace Sys2Proof.Tests

open Sys2Proof.Machine

/-! ## Well-formedness: for each check an ill-formed term it refuses -/

/-- `addr` above 31 in a jump (WellFormed.lean). -/
theorem test_wellFormed_refuses_jumps_beyond_31 :
    (Instr.j 32).wellFormed = false ∧ (Instr.jal 0x3FFFFFF).wellFormed = false ∧
      (Instr.j 31).wellFormed = true := by decide

/-- R94 (b): a JUMP or IMMEDIATE primary field of zero. -/
theorem test_encWf_refuses_zero_primary :
    ({ Enc.default with jal := 0 } : Enc).wf = false ∧ ({ Enc.default with lui := 0 } : Enc).wf = false := by
  decide

/-- R94 (c): `j` and `jal` alike, or a JUMP primary field that is an IMMEDIATE one. -/
theorem test_encWf_refuses_shared_jump :
    ({ Enc.default with jal := 0x02 } : Enc).wf = false ∧
      ({ Enc.default with jal := 0x08 } : Enc).wf = false := by decide

/-- R94 (d): a shared IMMEDIATE primary field without different sub-keys. -/
theorem test_encWf_refuses_shared_immediate :
    ({ Enc.default with bgezRt := some 0 } : Enc).wf = false ∧
      ({ Enc.default with bgezRt := none } : Enc).wf = false ∧
      ({ Enc.default with addiu := 0x08 } : Enc).wf = false := by decide

/-- R94 (e): a function code twice in one family. -/
theorem test_encWf_refuses_shared_function_code :
    ({ Enc.default with sub := 0x20 } : Enc).wf = false ∧
      ({ Enc.default with mul := 0x0C } : Enc).wf = false := by decide

/-- R94's remark: a PSEUDO function code that shadows a REGISTER one is well-formed, and not disjoint. -/
theorem test_encWf_admits_shadowing :
    ({ Enc.default with add := 0x1C } : Enc).wf = true ∧
      ({ Enc.default with add := 0x1C } : Enc).functsDisjoint = false := by decide

/-- R7: IMEM_CAPACITY at least 1, and at most HALT_PC. -/
theorem test_configWf_refuses :
    ({ Config.default with imemCapacity := 0 } : Config).wf = false ∧
      ({ Config.default with imemCapacity := 1025 } : Config).wf = false ∧
      ({ Config.default with enc := { Enc.default with lui := 0 } } : Config).wf = false := by decide

/-! ## Decoding: for every constructor a word written out from its row's encoding -/

/-- R111 to R125. -/
theorem test_decode_arithmetic_and_logic_register :
    decode Enc.default 0b000000_01000_01001_01010_00000_100000 = .ok (.add 10 8 9) ∧
      decode Enc.default 0b000000_01000_01001_01010_00000_100001 = .ok (.addu 10 8 9) ∧
      decode Enc.default 0b000000_01000_01001_01010_00000_100010 = .ok (.sub 10 8 9) ∧
      decode Enc.default 0b000000_01000_01001_01010_00000_100011 = .ok (.subu 10 8 9) ∧
      decode Enc.default 0b000000_01000_01001_01010_00000_100100 = .ok (.and 10 8 9) ∧
      decode Enc.default 0b000000_01000_01001_01010_00000_100101 = .ok (.or 10 8 9) ∧
      decode Enc.default 0b000000_01000_01001_01010_00000_100110 = .ok (.xor 10 8 9) ∧
      decode Enc.default 0b000000_01000_01001_01010_00000_100111 = .ok (.nor 10 8 9) ∧
      decode Enc.default 0b000000_01000_01001_01010_00000_101010 = .ok (.slt 10 8 9) ∧
      decode Enc.default 0b000000_01000_01001_01010_00000_101011 = .ok (.sltu 10 8 9) := by
  decide

/-- R113 to R128. -/
theorem test_decode_arithmetic_and_logic_immediate :
    decode Enc.default 0b001000_01000_01001_1111111111111101 = .ok (.addi 9 8 0xFFFD) ∧
      decode Enc.default 0b001001_01000_01001_1111111111111101 = .ok (.addiu 9 8 0xFFFD) ∧
      decode Enc.default 0b001010_01000_01001_1111111111111101 = .ok (.slti 9 8 0xFFFD) ∧
      decode Enc.default 0b001011_01000_01001_1111111111111101 = .ok (.sltiu 9 8 0xFFFD) ∧
      decode Enc.default 0b001100_01000_01001_1111111111111101 = .ok (.andi 9 8 0xFFFD) ∧
      decode Enc.default 0b001101_01000_01001_1111111111111101 = .ok (.ori 9 8 0xFFFD) ∧
      decode Enc.default 0b001110_01000_01001_1111111111111101 = .ok (.xori 9 8 0xFFFD) ∧
      decode Enc.default 0b001111_01000_01001_0001001000110100 = .ok (.lui 9 0x1234) := by
  decide

/-- R141 to R146. -/
theorem test_decode_shifts :
    decode Enc.default 0b000000_01000_01001_01010_00100_000000 = .ok (.sll 10 9 4) ∧
      decode Enc.default 0b000000_01000_01001_01010_00100_000010 = .ok (.srl 10 8 4) ∧
      decode Enc.default 0b000000_01000_01001_01010_00100_000011 = .ok (.sra 10 9 4) ∧
      decode Enc.default 0b000000_01000_01001_01010_00100_000100 = .ok (.sllv 10 9 8) ∧
      decode Enc.default 0b000000_01000_01001_01010_00100_000110 = .ok (.srlv 10 9 8) ∧
      decode Enc.default 0b000000_01000_01001_01010_00100_000111 = .ok (.srav 10 9 8) := by
  decide

/-- R151 to R159. -/
theorem test_decode_multiply_divide_moves :
    decode Enc.default 0b000000_01000_01001_01010_00100_011000 = .ok (.mult 8 9) ∧
      decode Enc.default 0b000000_01000_01001_01010_00100_011001 = .ok (.multu 8 9) ∧
      decode Enc.default 0b000000_01000_01001_01010_00100_011010 = .ok (.div 8 9) ∧
      decode Enc.default 0b000000_01000_01001_01010_00100_011011 = .ok (.divu 8 9) ∧
      decode Enc.default 0b000000_01000_01001_01010_00100_010000 = .ok (.mfhi 10) ∧
      decode Enc.default 0b000000_01000_01001_01010_00100_010001 = .ok (.mthi 10) ∧
      decode Enc.default 0b000000_01000_01001_01010_00100_010010 = .ok (.mflo 10) ∧
      decode Enc.default 0b000000_01000_01001_01010_00100_010011 = .ok (.mtlo 10) ∧
      decode Enc.default 0b000000_01000_01001_01010_00100_011100 = .ok (.mul 10 8 9) := by
  decide

/-- R166 to R171. -/
theorem test_decode_loads_and_stores :
    decode Enc.default 0b100000_01000_01001_0000000000000100 = .ok (.lb 9 4 8) ∧
      decode Enc.default 0b100001_01000_01001_0000000000000100 = .ok (.lh 9 4 8) ∧
      decode Enc.default 0b100011_01000_01001_0000000000000100 = .ok (.lw 9 4 8) ∧
      decode Enc.default 0b101000_01000_01001_0000000000000100 = .ok (.sb 9 4 8) ∧
      decode Enc.default 0b101001_01000_01001_0000000000000100 = .ok (.sh 9 4 8) ∧
      decode Enc.default 0b101011_01000_01001_0000000000000100 = .ok (.sw 9 4 8) := by
  decide

/-- R176 to R185. -/
theorem test_decode_control_transfer :
    decode Enc.default 0b000100_01000_01001_0000000000000010 = .ok (.beq 8 9 2) ∧
      decode Enc.default 0b000101_01000_01001_0000000000000010 = .ok (.bne 8 9 2) ∧
      decode Enc.default 0b000001_01000_00001_0000000000000010 = .ok (.bgez 8 2) ∧
      decode Enc.default 0b000001_01000_00000_0000000000000010 = .ok (.bltz 8 2) ∧
      decode Enc.default 0b000111_01000_01001_0000000000000010 = .ok (.bgtz 8 2) ∧
      decode Enc.default 0b000110_01000_01001_0000000000000010 = .ok (.blez 8 2) ∧
      decode Enc.default 0b000010_00000000000000000000011111 = .ok (.j 31) ∧
      decode Enc.default 0b000011_00000000000000000000000101 = .ok (.jal 5) ∧
      decode Enc.default 0b000000_01000_01001_01010_00100_001000 = .ok (.jr 8) ∧
      decode Enc.default 0b000000_01000_01001_01010_00100_001001 = .ok (.jalr 10 8) := by
  decide

/-- R196, R197. -/
theorem test_decode_system :
    decode Enc.default 0b000000_01000_01001_01010_00100_001101 = .ok (.brk 10) ∧
      decode Enc.default 0b000000_11111_11111_11111_11111_001100 = .ok .syscall := by
  decide

/-- Section 2: all nine outputs of the decoder. -/
theorem test_decoderOut :
    decoderOut 0x12345678 = ⟨0x04, 17, 20, 10, 25, 0x38, 0x5678, 0x00005678, 0x2345678⟩ ∧
      decoderOut 0x8D09FFFC = ⟨0x23, 8, 9, 31, 31, 0x3C, 0xFFFC, 0xFFFFFFFC, 0x109FFFC⟩ ∧
      decoderOut 0xFFFFFFFF = ⟨0x3F, 31, 31, 31, 31, 0x3F, 0xFFFF, 0xFFFFFFFF, 0x3FFFFFF⟩ := by decide

/-- R75's corners. -/
theorem test_immediate_extension :
    sext32 0x7FFF = 0x00007FFF ∧ sext32 0x8000 = 0xFFFF8000 ∧ zext32 0x8000 = 0x00008000 := by decide

/-- Section 3: words the classifier finds no valid family for, one of each class of R97. -/
theorem test_malformed_words :
    decode Enc.default 0x0000003F = .error (.unmappedFunct 0x3F) ∧
      decode Enc.default 0x9C000000 = .error (.unmappedOp 0x27) ∧
      decode Enc.default 0x04020000 = .error (.unmappedRt 2) ∧
      decode Enc.default 0x0BFFFFFF = .error (.addrTooLarge 0x3FFFFFF) ∧
      decode Enc.default 0x08000020 = .error (.addrTooLarge 32) := by decide

/-- Section 3: the classifier alone. -/
theorem test_classify :
    classify Enc.default 0x03FFFFDC = ⟨some .pseudo, true⟩ ∧
      classify Enc.default 0x00000001 = ⟨some .register, false⟩ ∧
      classify Enc.default 0x08000020 = ⟨some .jump, false⟩ ∧
      classify Enc.default 0x041F0000 = ⟨some .immediate, false⟩ ∧
      classify Enc.default 0x40000000 = ⟨none, false⟩ := by decide

/-- R93's words for `addi $t0,$zero,5` and `mul $t2,$t0,$t1` (sections 1 and 4.3). -/
theorem test_encode :
    encode Enc.default (.addi 8 0 5) = 0x20080005 ∧ encode Enc.default (.mul 10 8 9) = 0x0109501C := by
  decide

/-- A table row's word as the opcode table numbers its bits, and a malformed one. -/
theorem test_decodeTableWord :
    decodeTableWord 32 0x01095020 = some (.add 10 8 9) ∧ decodeTableWord 32 0xFFFFFFFF = none := by decide

/-! ## One instruction (section 4): a state at index 5 -/

/-- The reset state with the registers listed set. -/
def setRegs (s : State) (l : List (RegIdx × Word)) : State := l.foldl (fun s p => s.setReg p.1 p.2) s

/-- The reset state at index 5, with the registers listed, `HI` 0x11 and `LO` 0x22. -/
def at5 (l : List (RegIdx × Word)) : State :=
  { setRegs State.reset l with pc := 5, hi := 0x11, lo := 0x22 }

/-- After `i` the registers listed are as given, every other one as before, and `pc` is `pc`. -/
def regsAre (i : Instr) (s : State) (l : List (RegIdx × Word)) (pc : Word) : Bool :=
  match exec i s with
  | .next t => t.regs == (setRegs s l).regs && t.pc == pc
  | _ => false

/-- After `i` the accumulators hold `hi` and `lo`, and no register has changed. -/
def accIs (i : Instr) (s : State) (hi lo : Word) : Bool :=
  match exec i s with
  | .next t => t.regs == s.regs && t.hi == hi && t.lo == lo
  | _ => false

/-- `i` failed with `f`, at the same `pc`, HALTED, with no register or accumulator changed. -/
def fails (i : Instr) (s : State) (f : Failure) : Bool :=
  match exec i s with
  | .next t => t == { s with fail := some f, run := .halted }
  | _ => false

theorem test_add_wraps_at_the_signed_boundary :
    regsAre (.add 10 8 9) (at5 [(8, 0x7FFFFFFF), (9, 1)]) [(10, 0x80000000)] 6 = true := by decide
theorem test_add_with_rd_zero : regsAre (.add 0 8 9) (at5 [(8, 5), (9, 7)]) [] 6 = true := by decide
theorem test_addu_wraps :
    regsAre (.addu 10 8 9) (at5 [(8, 0x80000000), (9, 0x80000000), (10, 1)]) [(10, 0)] 6 = true := by decide
theorem test_addi_imm16_0x8000 : regsAre (.addi 8 0 0x8000) (at5 []) [(8, 0xFFFF8000)] 6 = true := by decide
theorem test_addiu_minus_1 :
    regsAre (.addiu 9 8 0xFFFF) (at5 [(8, 0x80000000)]) [(9, 0x7FFFFFFF)] 6 = true := by decide
theorem test_sub_order : regsAre (.sub 10 8 9) (at5 [(8, 5), (9, 7)]) [(10, 0xFFFFFFFE)] 6 = true := by decide
theorem test_subu_wraps : regsAre (.subu 10 8 9) (at5 [(9, 1)]) [(10, 0xFFFFFFFF)] 6 = true := by decide
theorem test_and :
    regsAre (.and 10 8 9) (at5 [(8, 0xFF00FF00), (9, 0x0FF00FF0)]) [(10, 0x0F000F00)] 6 = true := by decide
theorem test_or :
    regsAre (.or 10 8 9) (at5 [(8, 0xFF00FF00), (9, 0x0FF00FF0)]) [(10, 0xFFF0FFF0)] 6 = true := by decide
theorem test_xor :
    regsAre (.xor 10 8 9) (at5 [(8, 0xFF00FF00), (9, 0x0FF00FF0)]) [(10, 0xF0F0F0F0)] 6 = true := by decide
theorem test_nor :
    regsAre (.nor 10 8 9) (at5 [(8, 0xFF00FF00), (9, 0x0FF00FF0)]) [(10, 0x000F000F)] 6 = true := by decide
theorem test_andi_zero_extends :
    regsAre (.andi 9 8 0xFF00) (at5 [(8, 0xFFFFFFFF)]) [(9, 0x0000FF00)] 6 = true := by decide
theorem test_ori_zero_extends :
    regsAre (.ori 9 8 0x8001) (at5 [(8, 0x10000000)]) [(9, 0x10008001)] 6 = true := by decide
theorem test_xori_zero_extends :
    regsAre (.xori 9 8 0xFFFF) (at5 [(8, 0xFFFFFFFF)]) [(9, 0xFFFF0000)] 6 = true := by decide
theorem test_slt_is_signed :
    regsAre (.slt 10 8 9) (at5 [(8, 0xFFFFFFFF), (9, 1)]) [(10, 1)] 6 = true := by decide
theorem test_slt_equal : regsAre (.slt 10 8 9) (at5 [(8, 3), (9, 3), (10, 7)]) [(10, 0)] 6 = true := by decide
theorem test_sltu_is_signed :
    regsAre (.sltu 10 8 9) (at5 [(8, 1), (9, 0xFFFFFFFF), (10, 7)]) [(10, 0)] 6 = true := by decide
theorem test_slti : regsAre (.slti 9 8 0xFFFF) (at5 [(8, 0xFFFFFFFE)]) [(9, 1)] 6 = true := by decide
theorem test_sltiu_is_signed : regsAre (.sltiu 9 8 0xFFFF) (at5 [(9, 9)]) [(9, 0)] 6 = true := by decide
theorem test_lui_overwrites :
    regsAre (.lui 8 0x1234) (at5 [(8, 0xFFFFFFFF)]) [(8, 0x12340000)] 6 = true := by decide
theorem test_sll : regsAre (.sll 10 9 4) (at5 [(9, 0x12345678)]) [(10, 0x23456780)] 6 = true := by decide
theorem test_srl_reads_rs :
    regsAre (.srl 10 8 4) (at5 [(8, 0x80000010), (9, 0xFFFFFFFF)]) [(10, 0x08000001)] 6 = true := by decide
theorem test_sra_by_31_negative :
    regsAre (.sra 10 9 31) (at5 [(9, 0x80000000)]) [(10, 0xFFFFFFFF)] 6 = true := by decide
theorem test_sllv_36_acts_as_4 :
    regsAre (.sllv 10 9 8) (at5 [(8, 0x24), (9, 1)]) [(10, 0x10)] 6 = true := by decide
theorem test_srlv :
    regsAre (.srlv 10 9 8) (at5 [(8, 4), (9, 0x80000000)]) [(10, 0x08000000)] 6 = true := by decide
theorem test_srav_0xFFFFFFFF_acts_as_31 :
    regsAre (.srav 10 9 8) (at5 [(8, 0xFFFFFFFF), (9, 0x80000000)]) [(10, 0xFFFFFFFF)] 6 = true := by decide
theorem test_mult_minus_2_by_3 :
    accIs (.mult 8 9) (at5 [(8, 0xFFFFFFFE), (9, 3)]) 0xFFFFFFFA 0xFFFFFFFA = true := by decide
theorem test_multu_squared :
    accIs (.multu 8 9) (at5 [(8, 0xFFFFFFFF), (9, 0xFFFFFFFF)]) 1 1 = true := by decide
theorem test_div_minus_7_by_2 :
    accIs (.div 8 9) (at5 [(8, 0xFFFFFFF9), (9, 2)]) 0xFFFFFFFF 0xFFFFFFFD = true := by decide
theorem test_div_by_zero :
    fails (.div 8 9) (at5 [(8, 5)]) (.arithmeticFault .divisionByZero 5) = true := by decide
theorem test_divu_is_signed :
    accIs (.divu 8 9) (at5 [(8, 0xFFFFFFF9), (9, 2)]) 0xFFFFFFFF 0xFFFFFFFD = true := by decide
theorem test_divu_overflow :
    fails (.divu 8 9) (at5 [(8, 0x80000000), (9, 0xFFFFFFFF)]) (.arithmeticFault .divisionOverflow 5) = true := by decide
theorem test_mfhi : regsAre (.mfhi 10) (at5 []) [(10, 0x11)] 6 = true := by decide
theorem test_mflo : regsAre (.mflo 10) (at5 []) [(10, 0x22)] 6 = true := by decide
theorem test_mthi_reads_rd : accIs (.mthi 10) (at5 [(10, 0x77)]) 0x77 0x22 = true := by decide
theorem test_mtlo_reads_rd : accIs (.mtlo 10) (at5 [(10, 0x88)]) 0x11 0x88 = true := by decide
theorem test_mul_register :
    regsAre (.mul 10 8 9) (at5 [(8, 0x00010001), (9, 0x00010001)]) [(10, 0x00020001)] 6 = true := by decide
theorem test_mul_with_rd_zero : accIs (.mul 0 8 9) (at5 [(8, 6), (9, 7)]) 0x2A 0x2A = true := by decide
theorem test_lb_copies_all_bits :
    regsAre (.lb 9 4 8) (at5 [(8, 0x12345678)]) [(9, 0x12345678)] 6 = true := by decide
theorem test_lh_copies_all_bits :
    regsAre (.lh 9 4 8) (at5 [(8, 0xFFFF8000)]) [(9, 0xFFFF8000)] 6 = true := by decide
theorem test_lw_ignores_the_offset : regsAre (.lw 9 4 8) (at5 [(8, 0x63)]) [(9, 0x63)] 6 = true := by decide
theorem test_sb_writes_rs :
    regsAre (.sb 9 4 8) (at5 [(9, 0x12345678), (8, 1)]) [(8, 0x12345678)] 6 = true := by decide
theorem test_sh_writes_rs :
    regsAre (.sh 9 4 8) (at5 [(9, 0xFFFF8000), (8, 1)]) [(8, 0xFFFF8000)] 6 = true := by decide
theorem test_sw_writes_rs : regsAre (.sw 9 4 8) (at5 [(9, 0x63), (8, 0x3E8)]) [(8, 0x63)] 6 = true := by decide
theorem test_beq_taken : regsAre (.beq 8 9 2) (at5 [(8, 3), (9, 3)]) [] 7 = true := by decide
theorem test_beq_taken_wraps : regsAre (.beq 0 0 0xFFFA) (at5 []) [] 0xFFFFFFFF = true := by decide
theorem test_bne_taken_backward : regsAre (.bne 8 9 0xFFFD) (at5 [(8, 3), (9, 4)]) [] 2 = true := by decide
theorem test_bne_not_taken : regsAre (.bne 8 9 0xFFFD) (at5 [(8, 3), (9, 3)]) [] 6 = true := by decide
theorem test_bgez_zero : regsAre (.bgez 8 2) (at5 []) [] 7 = true := by decide
theorem test_bgtz_zero : regsAre (.bgtz 8 2) (at5 []) [] 6 = true := by decide
theorem test_blez_zero : regsAre (.blez 8 2) (at5 []) [] 7 = true := by decide
theorem test_bltz_most_negative : regsAre (.bltz 8 2) (at5 [(8, 0x80000000)]) [] 7 = true := by decide
theorem test_bltz_zero : regsAre (.bltz 8 2) (at5 []) [] 6 = true := by decide
theorem test_j_goes_through_the_register : regsAre (.j 31) (at5 [(31, 12)]) [] 12 = true := by decide
theorem test_j_32_fails : fails (.j 32) (at5 []) (.malformedInstruction 0x08000020 5) = true := by decide
theorem test_jal_writes_no_link : regsAre (.jal 31) (at5 [(31, 12)]) [] 12 = true := by decide
theorem test_jr : regsAre (.jr 31) (at5 [(31, 0xFFFFFFFF)]) [] 0xFFFFFFFF = true := by decide
theorem test_jalr_links_its_own_index : regsAre (.jalr 31 8) (at5 [(8, 7)]) [(31, 5)] 7 = true := by decide
theorem test_jalr_zero_reads_the_link : regsAre (.jalr 0 0) (at5 []) [] 5 = true := by decide
theorem test_break_jumps : regsAre (.brk 8) (at5 [(8, 1000)]) [] 1000 = true := by decide
theorem test_syscall_10_goes_to_halt_pc : regsAre .syscall (at5 [(2, 10)]) [] 1024 = true := by decide

/-- `syscall` with an unknown service: the diagnostic, the failure and HALT_PC. -/
theorem test_syscall_unknown :
    (match exec .syscall (at5 [(2, 0xFFFFFFFF)]) with
      | .next t => t.out == [.unknownSyscallMessage 0xFFFFFFFF] && t.pc == 1024 &&
          t.fail == some (.unknownSyscall 0xFFFFFFFF 5)
      | _ => false) = true := by decide

/-! ## The loop -/

/-- A small loaded state: `div $zero,$zero`'s word, `syscall`, a malformed word. -/
def loaded : State := State.reset.load [0x0000001A, 0x0000000C, 0xFFFFFFFF]

/-- One step from `s` gives exactly `t`. -/
def stepsTo (s t : State) : Bool :=
  match step s with
  | .next t' => t' == t
  | _ => false

theorem next_of_stepsTo {s t : State} (h : stepsTo s t = true) : step s = .next t := by
  unfold stepsTo at h
  split at h
  next hs => rw [hs, beq_iff_eq.1 h]
  · cases h

/-- P7: a division by zero ends the run; the step is counted and `pc` stays. -/
theorem test_step_division_by_zero :
    stepsTo loaded { loaded with
      run := .halted, fail := some (.arithmeticFault .divisionByZero 0), steps := 1 } = true := by decide

/-- P6: a malformed word. -/
theorem test_step_malformed :
    stepsTo { loaded with pc := 2 } { loaded with
      pc := 2, run := .halted, fail := some (.malformedInstruction 0xFFFFFFFF 2), steps := 1 } = true := by
  decide

/-- P15: a `pc` at PROG_LEN halts, with no failure and no step counted. -/
theorem test_step_out_of_range :
    stepsTo { loaded with pc := 3 } { loaded with pc := 3, run := .halted } = true := by decide

/-- The step onto a placed word runs it, as the first instruction after reset. -/
theorem test_withFetchWord :
    step (State.reset.withFetchWord 32 0x20080005) =
      exec (.addi 8 0 5) (State.reset.withFetchWord 32 0x20080005).tick :=
  step_withFetchWord _ _ _ _ (by decide)

/-! ## What the core exposes -/

/-- R199's renderings "42" and "-1" (section 4.6), and zero. -/
theorem test_numeral :
    numeral 42 = [0x34, 0x32] ∧ numeral 0xFFFFFFFF = [0x2D, 0x31] ∧ numeral 0 = [0x30] := by decide

/-- R21's names, R91's mnemonic and template, R206's codes. -/
theorem test_report :
    registerName 8 = "$t0" ∧ registerName 31 = "$ra" ∧
      disassemblyEntry Enc.default 0x01005102 = some ("srl", "rd, rs, shamt") ∧
      disassemblyEntry Enc.default 0xFFFFFFFF = none ∧
      { loaded with fail := some (.arithmeticFault .divisionByZero 0) }.exitStatus = 2 := by decide

/-- R248: the non-zero registers in index order. -/
theorem test_listing : (at5 [(9, 7), (8, 5)]).listing = [(8, 5), (9, 7)] := by decide

/-! ## Witnesses: an input that meets the hypotheses of each obligation -/

/-- `loaded` meets the invariant. -/
theorem loaded_inv : loaded.Inv where
  config := by decide
  length := by decide
  canonical := by decide
  cells a w h := by
    by_cases ha : a < 1024
    · exact ha
    · rw [show loaded.imem = [(0, 0x0000001A), (1, 0x0000000C), (2, 0xFFFFFFFF)] from rfl] at h
      simp only [Memory.read] at h
      rw [if_neg (by omega), if_neg (by omega), if_neg (by omega)] at h
      cases h
  loaded a h := by
    have : a = 0 ∨ a = 1 ∨ a = 2 := by
      have : loaded.progLen = 3 := rfl
      omega
    rcases this with rfl | rfl | rfl <;> rfl
  zero := by decide
  running _ := rfl
  failure f h := by cases h

theorem witness_DecodeOfEncodeIsTheInstruction :
    Enc.default.wf = true ∧ Enc.default.functsDisjoint = true ∧ (Instr.jal 31).wellFormed = true ∧
      (Instr.bgez 8 0xFFFF).wellFormed = true := by decide

theorem witness_DispatchAgreesWithClassifier :
    Enc.default.wf = true ∧ dispatch Enc.default 0x0109501C = some .mul := by decide

theorem witness_RowsMatchByMask :
    (0x05010002 : Word) &&& Enc.default.mask .bgez = Enc.default.pattern .bgez := by decide

theorem witness_PseudoIsTestedFirst :
    opField 0x0109501C = 0 ∧ functField 0x0109501C = Enc.default.mul ∧
      functField 0x03FFFFCC = Enc.default.syscall ∧
      Mnemonic.family .add = .register ∧
      ({ Enc.default with add := 0x1C } : Enc).funct .add = ({ Enc.default with add := 0x1C } : Enc).mul := by
  decide

/-- One word for each class of R97, and the state for its second half. -/
theorem witness_MalformedWordsExactly :
    (opField 0x0000003F = 0 ∧ functField 0x0000003F = 0x3F) ∧ opField 0x40000000 = 0x10 ∧
      (opField 0x04020000 = 1 ∧ (rtField 0x04020000).toNat = 2) ∧
      (opField 0x08000020 = 2 ∧ (0x08000020 : Word).extractLsb' 5 21 ≠ 0) ∧
      loaded.cfg.enc = Enc.default ∧ ∃ r, decode Enc.default 0xFFFFFFFF = .error r :=
  ⟨by decide, by decide, by decide, by decide, by decide, .unmappedOp 0x3F, by decide⟩

theorem witness_StepRunsTheDecodedInstruction :
    loaded.cfg.wf = true ∧ loaded.progLen ≤ loaded.cfg.imemCapacity ∧ loaded.run = .running ∧
      loaded.pc.toNat < loaded.progLen ∧ loaded.pc.toNat < loaded.cfg.haltPc.toNat ∧
      loaded.imem.read loaded.pc.toNat = some 0x0000001A ∧
      decode loaded.cfg.enc 0x0000001A = .ok (.div 0 0) := by decide

/-- Both clauses, each at its boundary. -/
theorem witness_OutOfRangePcHaltsNormally :
    loaded.cfg.wf = true ∧ loaded.progLen ≤ loaded.cfg.imemCapacity ∧ loaded.run = .running ∧
      loaded.progLen = (3 : Word).toNat ∧ loaded.cfg.haltPc.toNat = (1024 : Word).toNat := by decide

/-- Also the state of `MalformedWordsExactly`'s second half. -/
theorem witness_MalformedWordFailsTheRun :
    loaded.cfg.wf = true ∧ loaded.progLen ≤ loaded.cfg.imemCapacity ∧ loaded.run = .running ∧
      (2 : Word).toNat < loaded.progLen ∧ (2 : Word).toNat < loaded.cfg.haltPc.toNat ∧
      loaded.imem.read 2 = some 0xFFFFFFFF ∧
      (classify loaded.cfg.enc 0xFFFFFFFF).valid = false := by decide

theorem witness_HaltedMachineHasNoStep :
    loaded.halt.run = .halted ∧ loaded.halt.cfg.wf = true ∧
      loaded.halt.progLen ≤ loaded.halt.cfg.imemCapacity := by decide

theorem witness_FirstStepAfterReset :
    Config.default.wf = true ∧ decode Config.default.enc 0x20080005 = .ok (.addi 8 0 5) ∧
      ({ Config.default with imemCapacity := 1, haltPc := 1 } : Config).wf = true := by decide

theorem witness_EveryStepKeepsTheInvariant : loaded.Inv ∧ ∃ t, step loaded = .next t :=
  ⟨loaded_inv, _, next_of_stepsTo test_step_division_by_zero⟩

theorem witness_LoadedResetMeetsTheInvariant : Config.default.wf = true := by decide

theorem witness_RunningMachineAlwaysSteps : loaded.Inv ∧ loaded.run = .running := ⟨loaded_inv, rfl⟩

theorem witness_OneStepChangesAtMost :
    loaded.reg 0 = 0 ∧ (∃ t, step loaded = .next t) ∧ (∃ t, step { loaded with pc := 3 } = .next t) ∧
      loaded.halt.run = .halted :=
  ⟨by decide, ⟨_, next_of_stepsTo test_step_division_by_zero⟩,
    ⟨_, next_of_stepsTo test_step_out_of_range⟩, rfl⟩

/-- A running state for each clause: a zero divisor, the overflow, an unknown service, and `j 32`. -/
theorem witness_OnlyTheseInstructionsFail :
    (at5 []).run = .running ∧ (at5 []).reg 9 = 0 ∧
      (at5 [(8, 0x80000000), (9, 0xFFFFFFFF)]).reg 8 = 0x80000000 ∧
      (at5 [(8, 0x80000000), (9, 0xFFFFFFFF)]).reg 9 = 0xFFFFFFFF ∧
      (at5 []).reg (at5 []).cfg.syscallNumReg ∉ ([1, 10, 11] : List Word) ∧
      31 < (32 : BitVec 26).toNat := by decide

theorem witness_OnlyTheseTouchHiAndLo :
    (∃ t, exec (.mult 8 9) (at5 []) = .next t ∧ t.hi ≠ (at5 []).hi ∧ t.lo ≠ (at5 []).lo) ∧
      (Instr.mul 10 8 9).mnemonic ∉ [.mfhi, .mflo] :=
  ⟨⟨_, rfl, by decide, by decide⟩, by decide⟩

theorem witness_PcAdvancesByOneElsewhere :
    (Instr.add 10 8 9).mnemonic ∉
        [.beq, .bne, .bgez, .bgtz, .blez, .bltz, .j, .jal, .jr, .jalr, .brk, .syscall] ∧
      (Instr.div 8 9).mnemonic ∉
        [.beq, .bne, .bgez, .bgtz, .blez, .bltz, .j, .jal, .jr, .jalr, .brk, .syscall] := by decide

/-- A buffer that agrees below PROG_LEN and differs above it. -/
theorem witness_UnloadedCellsAreUnobservable :
    (∀ a, a < loaded.progLen → (loaded.imem.write 3 7).read a = loaded.imem.read a) ∧
      (loaded.imem.write 3 7).read 3 ≠ loaded.imem.read 3 := by decide

/-- Both outcomes: a run that halts within the ceiling, and one that starts at it. -/
theorem witness_RunHonoursTheStepLimit :
    (({ loaded with cfg := { Config.default with stepLimit := some 10 } }).Inv ∧ 0 ≤ 10 ∧ 10 - 0 ≤ 10) ∧
      (({ loaded with cfg := { Config.default with stepLimit := some 0 } }).Inv ∧ 0 ≤ 0 ∧ 0 - 0 ≤ 0) :=
  ⟨⟨⟨by decide, loaded_inv.length, loaded_inv.canonical, loaded_inv.cells, loaded_inv.loaded,
      loaded_inv.zero, loaded_inv.running, fun f h => by cases h⟩, by decide, by decide⟩,
    ⟨by decide, loaded_inv.length, loaded_inv.canonical, loaded_inv.cells, loaded_inv.loaded,
      loaded_inv.zero, loaded_inv.running, fun f h => by cases h⟩, by decide, by decide⟩

/-- The statements that name their instructions by `i = …` are met by each of those instructions. -/
theorem witness_instructions_named :
    (∃ i : Instr, i = .add 10 8 9 ∨ i = .addu 10 8 9) ∧ (∃ i : Instr, i = .addi 9 8 5 ∨ i = .addiu 9 8 5) ∧
      (∃ i : Instr, i = .sub 10 8 9 ∨ i = .subu 10 8 9) ∧ (∃ i : Instr, i = .slt 10 8 9 ∨ i = .sltu 10 8 9) ∧
      (∃ i : Instr, i = .slti 9 8 5 ∨ i = .sltiu 9 8 5) ∧ (∃ i : Instr, i = .mult 8 9 ∨ i = .multu 8 9) ∧
      (∃ i : Instr, i = .lb 9 4 8 ∨ i = .lh 9 4 8 ∨ i = .lw 9 4 8) ∧
      (∃ i : Instr, i = .sb 9 4 8 ∨ i = .sh 9 4 8 ∨ i = .sw 9 4 8) :=
  ⟨⟨_, .inl rfl⟩, ⟨_, .inr rfl⟩, ⟨_, .inl rfl⟩, ⟨_, .inr rfl⟩, ⟨_, .inl rfl⟩, ⟨_, .inr rfl⟩,
    ⟨_, .inr (.inr rfl)⟩, ⟨_, .inr (.inl rfl)⟩⟩

theorem witness_LogicWritesEveryBit :
    ∃ (i : Instr) (f : Bool → Bool → Bool), i = .nor 10 8 9 ∧ f = fun a b => !(a || b) := ⟨_, _, rfl, rfl⟩

theorem witness_LogicImmediateWritesEveryBit :
    ∃ (i : Instr) (f : Bool → Bool → Bool), i = .xori 9 8 0xFFFF ∧ f = fun a b => a ^^ b := ⟨_, _, rfl, rfl⟩

/-- A count of 31 and a bit in the range of each clause. -/
theorem witness_ShiftLaws :
    30 < (31 : BitVec 5).toNat ∧ 32 - (31 : BitVec 5).toNat ≤ 1 ∧ 31 - (31 : BitVec 5).toNat ≤ 0 := by decide

/-- A state for each clause: a division that completes, at a divisor of minus one too; a zero divisor; the
overflow. -/
theorem witness_DivideOrFail :
    ((at5 [(8, 0xFFFFFFF9), (9, 0xFFFFFFFF)]).reg 9 ≠ 0 ∧
        ¬((at5 [(8, 0xFFFFFFF9), (9, 0xFFFFFFFF)]).reg 8 = 0x80000000 ∧
          (at5 [(8, 0xFFFFFFF9), (9, 0xFFFFFFFF)]).reg 9 = 0xFFFFFFFF)) ∧
      (at5 [(8, 5)]).reg 9 = 0 ∧
      ((at5 [(8, 0x80000000), (9, 0xFFFFFFFF)]).reg 8 = 0x80000000 ∧
        (at5 [(8, 0x80000000), (9, 0xFFFFFFFF)]).reg 9 = 0xFFFFFFFF) := by decide

theorem witness_DivisionLaw :
    (at5 [(8, 0x80000000), (9, 1)]).reg 9 ≠ 0 ∧
      ¬((at5 [(8, 0x80000000), (9, 1)]).reg 8 = 0x80000000 ∧
        (at5 [(8, 0x80000000), (9, 1)]).reg 9 = 0xFFFFFFFF) := by decide

theorem witness_MultiplicationLaw :
    (at5 []).reg 9 = 0 ∧ (at5 [(9, 1)]).reg 9 = 1 ∧ (at5 [(9, 0xFFFFFFFF)]).reg 9 = 0xFFFFFFFF := by decide

/-- Both sides of the bound on `addr`, and a state that fetches `j 32`'s word. -/
theorem witness_JumpsGoThroughARegister :
    (31 : BitVec 26).toNat ≤ 31 ∧ 31 < (32 : BitVec 26).toNat ∧ wordJ 0x08000000 32 = 0x08000020 ∧
      (State.reset.load [0x08000020]).admissible = true ∧
      (State.reset.load [0x08000020]).pcOutOfRange = false ∧
      (State.reset.load [0x08000020]).cfg.enc = Enc.default ∧
      (State.reset.load [0x08000020]).fetch = some 0x08000020 := by decide

theorem witness_IllegalJumpTermFails :
    31 < (32 : BitVec 26).toNat ∧ (at5 []).cfg.enc = Enc.default ∧ Instr.jal 32 = .jal 32 ∧
      wordJ 0x0C000000 32 = 0x0C000020 := by decide

/-- A state for each service, and for an unknown one. -/
theorem witness_SyscallServices :
    (at5 [(2, 1)]).reg (at5 [(2, 1)]).cfg.syscallNumReg = 1 ∧
      (at5 [(2, 10)]).reg (at5 [(2, 10)]).cfg.syscallNumReg = 10 ∧
      (at5 [(2, 11)]).reg (at5 [(2, 11)]).cfg.syscallNumReg = 11 ∧
      (at5 []).reg (at5 []).cfg.syscallNumReg = 0 := by decide

end Sys2Proof.Tests
end

section
/-! What one step may change (10_state.md R45). What an instruction may do to the registers and the output
is read off its effect (`exec_effect`); the loop around it adds only the count of the step (`step_cases`). -/

namespace Sys2Proof.Machine

/-- What a step that executes an instruction may do to the registers and the output (R45). The other fields
it must not touch are those of `BufferKept`. -/
structure ChangesAtMost (s t : State) : Prop where
  zero : t.reg 0 = 0
  regs : ∃ d, ∀ r, r ≠ d → t.reg r = s.reg r
  out : t.out = s.out ∨ ∃ e, t.out = s.out ++ [e]

/-- With register 0 already zero, clearing it changes nothing. -/
theorem cleared_reg_eq {s : State} (h0 : s.reg 0 = 0) (r : RegIdx) :
    (if r = 0 then 0 else s.reg r) = s.reg r := by
  split
  next hr => rw [hr, h0]
  next => rfl

theorem changesAtMost_of_reg_eq {s t : State} (h0 : s.reg 0 = 0) (hregs : ∀ r, t.reg r = s.reg r)
    (hout : t.out = s.out ∨ ∃ e, t.out = s.out ++ [e]) : ChangesAtMost s t :=
  ⟨(hregs 0).trans h0, ⟨0, fun r _ => hregs r⟩, hout⟩

theorem OnlyFailed.changesAtMost {s t : State} {f : Failure} (h0 : s.reg 0 = 0)
    (h : OnlyFailed s t f) : ChangesAtMost s t :=
  changesAtMost_of_reg_eq h0 h.regs (.inl h.out)

/-- The one register a completed handler may have changed is the one it wrote. -/
theorem Completed.changesAtMost {i : Instr} {s t : State} (h0 : s.reg 0 = 0)
    (h : Completed i s t) : ChangesAtMost s t := by
  obtain ⟨d, v, hregs⟩ := h.regs
  refine ⟨by rw [hregs, if_pos rfl], ⟨d, fun r hr => ?_⟩, h.out.imp_right And.right⟩
  rw [hregs r, if_neg hr, cleared_reg_eq h0]

theorem Effect.changesAtMost {i : Instr} {s t : State} (h0 : s.reg 0 = 0)
    (h : Effect i s t) : ChangesAtMost s t := by
  cases h with
  | completed h => exact h.changesAtMost h0
  | divisionFailed _ _ _ _ _ h => exact h.changesAtMost h0
  | illegalJump _ _ _ h => exact h.changesAtMost h0
  | unknownService _ _ _ _ regs _ _ _ _ _ out =>
    exact changesAtMost_of_reg_eq h0 (fun r => (regs r).trans (cleared_reg_eq h0 r)) (.inr ⟨_, out⟩)

theorem exec_changesAtMost {i : Instr} {s t : State} (h0 : s.reg 0 = 0) (h : exec i s = .next t) :
    BufferKept s t ∧ ChangesAtMost s t := by
  obtain ⟨t', ht', hbuffer, heffect⟩ := exec_effect i s
  obtain rfl : t' = t := by simpa [ht'] using h
  exact ⟨hbuffer, heffect.changesAtMost h0⟩

/-- A step is the normal halt out of range, or in range it executes an instruction or fails on a malformed
word, on the state with the step counted. -/
theorem step_changesAtMost {s t : State} (h0 : s.reg 0 = 0) (h : step s = .next t) :
    (s.pcOutOfRange = true ∧ t = s.halt) ∨
      (s.pcOutOfRange = false ∧ BufferKept s.tick t ∧ ChangesAtMost s.tick t) := by
  obtain ⟨-, -, hout | ⟨hin, w, -, ⟨r, -, ht⟩ | ⟨i, -, hexec⟩⟩⟩ := step_cases h
  · exact .inl hout
  · obtain ⟨t', ht', hfailed⟩ := failWith_frame (.malformedInstruction w s.pc) s.tick
    obtain rfl : t' = t := by simpa [failWith, ht, eq_comm] using ht'
    exact .inr ⟨hin, hfailed.buffer, hfailed.changesAtMost h0⟩
  · exact .inr ⟨hin, exec_changesAtMost h0 hexec⟩

theorem run_of_step {s t : State} (h : step s = .next t) : s.run = .running := by
  obtain ⟨-, hrun, -⟩ := step_cases h
  exact hrun

/-- The halt test fails exactly when `pc` is below both bounds (R241). -/
theorem pcOutOfRange_eq_false_iff (s : State) :
    s.pcOutOfRange = false ↔ s.pc.toNat < s.progLen ∧ s.pc.toNat < s.cfg.haltPc.toNat := by
  rw [← Bool.not_eq_true, pcOutOfRange_iff, not_or, Nat.not_le, Nat.not_le]

/-- Settles O19: a step is a normal halt or what `ChangesAtMost` and `BufferKept` allow on the state with
the step counted. -/
theorem oneStepChangesAtMost : Obligations.OneStepChangesAtMost := by
  intro s h0
  refine ⟨fun t h => ⟨run_of_step h, ?_⟩, fun hhalted t h => ?_⟩
  · rcases step_changesAtMost h0 h with ⟨hout, rfl⟩ | ⟨hin, hbuffer, hchanges⟩
    · exact ⟨.inl ⟨(pcOutOfRange_iff s).mp hout, rfl⟩, rfl, rfl, rfl⟩
    · exact ⟨.inr ⟨(pcOutOfRange_eq_false_iff s).mp hin, hchanges.zero, hchanges.regs, hchanges.out,
        hbuffer.steps⟩, hbuffer.cells, hbuffer.progLen, hbuffer.cfg⟩
  · rw [run_of_step h] at hhalted
    cases hhalted

end Sys2Proof.Machine
end

section
/-! The opcode tables read in both directions: which rows a word matches, what the classifier says of it, and
which words of `ENC_DEFAULT` match no row (30_encoding.md R78, R82, R88, R97). -/

namespace Sys2Proof.Machine

/-! ## The three views of a word -/

theorem setWidth_sext32 (v : BitVec 16) : (sext32 v).setWidth 16 = v := by
  apply BitVec.eq_of_getLsbD_eq
  intro k hk
  have hk' : k < 32 := by omega
  simp only [sext32, BitVec.getLsbD_setWidth, BitVec.getLsbD_signExtend, hk, hk', decide_true, Bool.true_and,
    if_true]

/-- Settles O2: the fields of a word fill it, and each field of an encoded word is read back. -/
theorem fieldLayoutsRoundTrip : Obligations.FieldLayoutsRoundTrip := by
  refine ⟨fun w => ⟨encodeR_fields w, ?_, encodeJ_fields w⟩, ?_, ?_, ?_⟩
  · rw [decodeI, setWidth_sext32, encodeI_fields]
  · intro op funct rs rt rd shamt
    simp [decodeR]
  · intro op rs rt imm16
    simp [decodeI, sext32]
  · intro op addr
    simp [decodeJ]

/-! ## A word that matches a PSEUDO row -/

/-- The key of a REGISTER or PSEUDO row (R85). -/
theorem keyHolds_funct_iff {e : Enc} {w : Word} {m : Mnemonic}
    (hm : m.family = .register ∨ m.family = .pseudo) :
    e.keyHolds w m ↔ opField w = 0 ∧ functField w = e.funct m := by
  rcases hm with hm | hm <;> rw [Enc.keyHolds, hm]

theorem family_eq_pseudo_iff {m : Mnemonic} : m.family = .pseudo ↔ m = .mul ∨ m = .syscall := by
  cases m <;> decide

/-- The PSEUDO rows are tried first, under every assignment: a word that matches one is dispatched to one
(R82). -/
theorem dispatch_of_pseudo_key {e : Enc} {w : Word} {m : Mnemonic} (hm : m.family = .pseudo)
    (h : e.keyHolds w m) : ∃ m', dispatch e w = some m' ∧ m'.family = .pseudo := by
  have hfound : ((Mnemonic.ofFamily .pseudo).find? (e.rowMatches w)).isSome := by
    rw [List.find?_isSome]
    exact ⟨m, hm ▸ mem_ofFamily m, (rowMatches_iff e w m).2 h⟩
  obtain ⟨m', hm'⟩ := Option.isSome_iff_exists.1 hfound
  refine ⟨m', ?_, family_of_mem (List.mem_of_find?_eq_some hm')⟩
  simp [dispatch, Mnemonic.all, List.find?_append, hm']

theorem exists_pseudo_key {e : Enc} {w : Word} (h0 : opField w = 0)
    (hf : functField w = e.mul ∨ functField w = e.syscall) :
    ∃ m, m.family = .pseudo ∧ e.keyHolds w m := by
  rcases hf with hf | hf
  · exact ⟨.mul, rfl, h0, hf⟩
  · exact ⟨.syscall, rfl, h0, hf⟩

theorem classify_of_pseudo_key {e : Enc} {w : Word} {m : Mnemonic} (hm : m.family = .pseudo)
    (h : e.keyHolds w m) : classify e w = ⟨some .pseudo, true⟩ := by
  obtain ⟨h0, hf⟩ := (keyHolds_funct_iff (.inr hm)).1 h
  exact if_pos ⟨h0, hf ▸ List.mem_map_of_mem (hm ▸ mem_ofFamily m)⟩

/-- Settles O6: dispatch tries both PSEUDO rows before every REGISTER row, and the classifier's first test is
the PSEUDO one. -/
theorem pseudoIsTestedFirst : Obligations.PseudoIsTestedFirst := by
  refine ⟨fun e w h0 hf => ?_, fun e m hm hf w hd => ?_, Enc.default_functsDisjoint⟩
  · obtain ⟨m, hm, hkey⟩ := exists_pseudo_key h0 hf
    obtain ⟨m', hd, hm'⟩ := dispatch_of_pseudo_key hm hkey
    refine ⟨classify_of_pseudo_key hm hkey, ?_⟩
    simpa [hd] using family_eq_pseudo_iff.1 hm'
  · obtain ⟨h0, hw⟩ := (keyHolds_funct_iff (.inl hm)).1 (keyHolds_of_dispatch hd)
    obtain ⟨p, hp, hkey⟩ := exists_pseudo_key (e := e) h0 (hw ▸ hf)
    obtain ⟨m', hd', hm'⟩ := dispatch_of_pseudo_key hp hkey
    obtain rfl : m = m' := by simpa [hd] using hd'
    exact absurd (hm.symm.trans hm') (by decide)

/-! ## The classifier and the rows -/

theorem op_ne_of_not_mem_immediateOps {e : Enc} {p : BitVec 6} (hp : p ∉ e.immediateOps) :
    ∀ m ∈ Mnemonic.ofFamily .immediate, e.op m ≠ p :=
  fun m hm hop => hp (List.mem_map.2 ⟨m, hm, hop⟩)

/-- What the classifier's tests ask of a valid word (R81). -/
theorem classify_valid_iff (e : Enc) (w : Word) : (classify e w).valid = true ↔
    (opField w = 0 ∧ (functField w ∈ e.pseudoFuncts ∨ functField w ∈ e.registerFuncts)) ∨
    (opField w ≠ 0 ∧ opField w ∈ e.jumpOps ∧ w.extractLsb' 5 21 = 0) ∨
    (opField w ≠ 0 ∧ opField w ∉ e.jumpOps ∧ ∃ m ∈ Mnemonic.ofFamily .immediate,
      e.op m = opField w ∧ rtAdmitted (e.rtKey m) (rtField w) = true) := by
  unfold classify
  by_cases h0 : opField w = 0#6
  · by_cases hp : functField w ∈ e.pseudoFuncts <;> simp [h0, hp]
  · by_cases hj : opField w ∈ e.jumpOps
    · simp [h0, hj]
    · by_cases hi : opField w ∈ e.immediateOps
      · simp [h0, hj, hi]
      · simp +contextual [h0, hj, hi, op_ne_of_not_mem_immediateOps hi]

/-- A word the classifier finds valid has the key of a row. -/
theorem exists_keyHolds_of_valid {e : Enc} {w : Word} (h : (classify e w).valid = true) :
    ∃ m, e.keyHolds w m := by
  rcases (classify_valid_iff e w).1 h with
    ⟨h0, hf | hf⟩ | ⟨-, hj, hz⟩ | ⟨-, -, m, hm, hop, hrt⟩
  · obtain ⟨m, hm, hf⟩ := List.mem_map.1 hf
    exact ⟨m, (keyHolds_funct_iff (.inr (family_of_mem hm))).2 ⟨h0, hf.symm⟩⟩
  · obtain ⟨m, hm, hf⟩ := List.mem_map.1 hf
    exact ⟨m, (keyHolds_funct_iff (.inl (family_of_mem hm))).2 ⟨h0, hf.symm⟩⟩
  · obtain ⟨m, hm, hop⟩ := List.mem_map.1 hj
    exact ⟨m, by simpa [Enc.keyHolds, family_of_mem hm, hop] using hz⟩
  · exact ⟨m, by simp [Enc.keyHolds, family_of_mem hm, hop, hrt]⟩

/-- Under every well-formed assignment a word is valid exactly when it is dispatched (R88). A REGISTER key
that a PSEUDO one shadows makes the word valid as well, in the other family. -/
theorem dispatch_isSome_eq_valid {e : Enc} (hwf : e.wf = true) (w : Word) :
    (dispatch e w).isSome = (classify e w).valid := by
  rw [Bool.eq_iff_iff, dispatch_isSome_iff]
  refine ⟨fun ⟨m, hm⟩ => ?_, exists_keyHolds_of_valid⟩
  by_cases hs : m.family = .register ∧ e.funct m ∈ e.pseudoFuncts
  · obtain ⟨hreg, hf⟩ := hs
    obtain ⟨h0, hw⟩ := (keyHolds_funct_iff (.inl hreg)).1 hm
    rw [classify, if_pos ⟨h0, hw ▸ hf⟩]
  · rw [classify_of_keyHolds hwf hm fun hreg hf => hs ⟨hreg, hf⟩]

theorem dispatch_default_iff (w : Word) (m : Mnemonic) :
    dispatch Enc.default w = some m ↔ Enc.default.keyHolds w m :=
  ⟨keyHolds_of_dispatch, fun h => dispatch_eq_some h fun _ h' =>
    keyHolds_unique Enc.default_wf Enc.default_functsDisjoint h' h⟩

theorem keyHolds_iff_mask (e : Enc) (w : Word) (m : Mnemonic) :
    e.keyHolds w m ↔ w &&& e.mask m = e.pattern m := by
  rw [← rowMatches_iff, Enc.rowMatches, beq_iff_eq]

theorem default_mask (m : Mnemonic) : Enc.default.mask m =
    if m.family = .register ∨ m.family = .pseudo then 0xFC00003F
    else if m.family = .jump then 0xFFFFFFE0
    else if m = .bltz ∨ m = .bgez then 0xFC1F0000 else 0xFC000000 := by
  cases m <;> rfl

/-- Settles O5: the rows of `ENC_DEFAULT` have keys no word meets two of, and a word's key names the family
the classifier gives it. -/
theorem rowsMatchByMask : Obligations.RowsMatchByMask := by
  refine ⟨default_mask, fun w m => ?_, fun w m m' h h' => ?_, fun w => ⟨?_, fun m hm => ?_⟩⟩
  · rw [dispatch_default_iff, keyHolds_iff_mask]
  · rw [← keyHolds_iff_mask] at h h'
    exact keyHolds_unique Enc.default_wf Enc.default_functsDisjoint h h'
  · exact dispatch_isSome_eq_valid Enc.default_wf w
  · rw [classify_of_keyHolds Enc.default_wf (keyHolds_of_dispatch hm) (default_not_shadowed m)]

/-! ## The malformed words of `ENC_DEFAULT` -/

theorem exists_decode_error_iff {e : Enc} (hwf : e.wf = true) (w : Word) :
    (∃ r, decode e w = .error r) ↔ (classify e w).valid = false := by
  rw [← dispatch_isSome_eq_valid hwf]
  unfold decode
  cases dispatch e w <;> simp

/-- The words of no row by the test they fail, under every assignment: the classes (a) to (d) of R97. -/
theorem classify_invalid_iff (e : Enc) (w : Word) : (classify e w).valid = false ↔
    (opField w = 0 ∧ functField w ∉ e.pseudoFuncts ∧ functField w ∉ e.registerFuncts) ∨
    (opField w ≠ 0 ∧ opField w ∉ e.jumpOps ∧ opField w ∉ e.immediateOps) ∨
    (opField w ≠ 0 ∧ opField w ∉ e.jumpOps ∧ opField w ∈ e.immediateOps ∧
      ∀ m ∈ Mnemonic.ofFamily .immediate, e.op m = opField w →
        rtAdmitted (e.rtKey m) (rtField w) = false) ∨
    ((opField w ≠ 0 ∧ opField w ∈ e.jumpOps) ∧ w.extractLsb' 5 21 ≠ 0) := by
  rw [← Bool.not_eq_true, classify_valid_iff]
  by_cases h0 : opField w = 0#6
  · simp [h0]
  · by_cases hj : opField w ∈ e.jumpOps
    · simp [h0, hj]
    · by_cases hi : opField w ∈ e.immediateOps
      · simp [h0, hj, hi]
      · simp +contextual [h0, hj, hi, op_ne_of_not_mem_immediateOps hi]

theorem default_unmapped_funct_iff (f : BitVec 6) :
    (f ∉ Enc.default.pseudoFuncts ∧ f ∉ Enc.default.registerFuncts) ↔ f ∈
      ([0x01, 0x05, 0x0A, 0x0B, 0x0E, 0x0F, 0x14, 0x15, 0x16, 0x17, 0x1D, 0x1E, 0x1F, 0x28, 0x29, 0x2C,
        0x2D, 0x2E, 0x2F, 0x30, 0x31, 0x32, 0x33, 0x34, 0x35, 0x36, 0x37, 0x38, 0x39, 0x3A, 0x3B, 0x3C,
        0x3D, 0x3E, 0x3F] : List (BitVec 6)) := by
  revert f
  decide

theorem default_unmapped_op_iff (p : BitVec 6) :
    (p ≠ 0 ∧ p ∉ Enc.default.jumpOps ∧ p ∉ Enc.default.immediateOps) ↔ p ∈
      ([0x10, 0x11, 0x12, 0x13, 0x14, 0x15, 0x16, 0x17, 0x18, 0x19, 0x1A, 0x1B, 0x1C, 0x1D, 0x1E, 0x1F,
        0x22, 0x24, 0x25, 0x26, 0x27, 0x2A, 0x2C, 0x2D, 0x2E, 0x2F, 0x30, 0x31, 0x32, 0x33, 0x34, 0x35,
        0x36, 0x37, 0x38, 0x39, 0x3A, 0x3B, 0x3C, 0x3D, 0x3E, 0x3F] : List (BitVec 6)) := by
  revert p
  decide

theorem default_jump_op_iff (p : BitVec 6) :
    (p ≠ 0 ∧ p ∈ Enc.default.jumpOps) ↔ p = 0x02 ∨ p = 0x03 := by
  revert p
  decide

theorem default_op_eq_one_iff {m : Mnemonic} : Enc.default.op m = 0x01 ↔ m = .bltz ∨ m = .bgez := by
  cases m <;> decide

/-- Only the field `bltz` and `bgez` share has an `rt` that is no sub-key: two or more (R86). -/
theorem default_unmapped_rt_iff (p : BitVec 6) (rt : BitVec 5) :
    (p ≠ 0 ∧ p ∉ Enc.default.jumpOps ∧ p ∈ Enc.default.immediateOps ∧
      ∀ m ∈ Mnemonic.ofFamily .immediate, Enc.default.op m = p →
        rtAdmitted (Enc.default.rtKey m) rt = false) ↔ p = 0x01 ∧ 2 ≤ rt.toNat := by
  have hkeys : (rtAdmitted (Enc.default.rtKey .bltz) rt = false ∧
      rtAdmitted (Enc.default.rtKey .bgez) rt = false) ↔ 2 ≤ rt.toNat := by
    revert rt
    decide
  rw [← hkeys]
  constructor
  · rintro ⟨-, -, hp, hall⟩
    obtain ⟨m, hm, rfl⟩ := List.mem_map.1 hp
    have hop : Enc.default.op m = 0x01 := by
      rw [default_op_eq_one_iff]
      by_contra hne
      rw [not_or] at hne
      simpa [Enc.rtKey, hne, rtAdmitted] using hall m hm rfl
    exact ⟨hop, hall .bltz (mem_ofFamily .bltz) hop.symm, hall .bgez (mem_ofFamily .bgez) hop.symm⟩
  · rintro ⟨rfl, hbltz, hbgez⟩
    refine ⟨by decide, by decide, by decide, fun m _ hop => ?_⟩
    rcases default_op_eq_one_iff.1 hop with rfl | rfl
    · exact hbltz
    · exact hbgez

/-- A step in range on a word the decoder rejects only records the failure, on the state with the step
counted (R207, R240). -/
theorem step_of_decode_error {s : State} {w : Word} {r : Malformed} (hadm : s.admissible = true)
    (hrun : s.run = .running) (hpc : s.pcOutOfRange = false) (hw : s.fetch = some w)
    (hr : decode s.cfg.enc w = .error r) :
    step s = failWith (.malformedInstruction w s.pc) s.tick := by
  simp [step, hadm, hrun, hpc, hw, hr]

/-- Settles O7: the four classes are the four ways to fail the classifier's tests, and the step on a word
the decoder rejects raises the failure. -/
theorem malformedWordsExactly : Obligations.MalformedWordsExactly := by
  refine ⟨fun w => ?_, ?_⟩
  · rw [exists_decode_error_iff Enc.default_wf, classify_invalid_iff, default_unmapped_funct_iff,
      default_unmapped_op_iff, default_unmapped_rt_iff, default_jump_op_iff]
  · rintro s w hcfg hlen hrun hprog hhalt hw henc ⟨r, hr⟩
    obtain ⟨t, ht, hfailed⟩ := failWith_frame (.malformedInstruction w s.pc) s.tick
    have hstep := step_of_decode_error ((admissible_iff s).2 ⟨hcfg, hlen⟩) hrun
      ((pcOutOfRange_eq_false_iff s).2 ⟨hprog, hhalt⟩) hw (henc ▸ hr)
    exact ⟨t, hstep.trans ht, hfailed.fail, hfailed.run⟩

end Sys2Proof.Machine
end

section
/-! Arithmetic, logic, comparison and load-upper (40_arith_logic.md R111 to R131): each instruction is one
`writeReg`, so its frame is `writeReg_frame` and what is left to say is which value it writes. -/

namespace Sys2Proof.Machine

/-! ## Reading the three-register and the register-immediate rows -/

/-- A row whose operands are the fields `rd`, `rs`, `rt`: `shamt` may hold anything (R89). -/
theorem readsAs_wordR_regs {base : Word} {m : Mnemonic} {mk : RegIdx → RegIdx → RegIdx → Instr}
    (rs rt rd : RegIdx) (shamt : BitVec 5) (hf : m.family = .register ∨ m.family = .pseudo)
    (hb : base = encodeR 0 0 0 0 0 (Enc.default.funct m))
    (hm : ∀ w, assemble w m = mk (rdField w) (rsField w) (rtField w)) :
    ReadsAs (wordR base rs rt rd shamt) m.family (mk rd rs rt) :=
  readsAs_wordR hf hb <| by rw [hm, rdField_encodeR, rsField_encodeR, rtField_encodeR]

/-- A row whose operands are the fields `rt`, `rs`, `imm16`. -/
theorem readsAs_wordI_regs {base : Word} {m : Mnemonic} {mk : RegIdx → RegIdx → BitVec 16 → Instr}
    (rs rt : RegIdx) (imm16 : BitVec 16) (hf : m.family = .immediate) (hk : Enc.default.rtKey m = none)
    (hb : base = encodeI (Enc.default.op m) 0 0 0)
    (hm : ∀ w, assemble w m = mk (rtField w) (rsField w) (imm16Field w)) :
    ReadsAs (wordI base rs rt imm16) .immediate (mk rt rs imm16) :=
  readsAs_wordI hf hk hb <| by rw [hm, rtField_encodeI, rsField_encodeI, imm16Field_encodeI]

/-! ## The effect of an instruction that is one register write -/

/-- The frame of `writeReg`, with the value in the form a rule states it. -/
theorem exec_frame_of_writeReg {i : Instr} {s : State} {d : RegIdx} {u v : Word}
    (hexec : exec i s = writeReg d u s) (hvalue : u = v) :
    ∃ t, exec i s = .next t ∧ t.pc = s.pc + 1 ∧ OnlyRegWritten s t d v := by
  rw [hexec, hvalue]
  exact writeReg_frame d v s

/-- The frame of `writeReg`, with the value described by a property of it. -/
theorem exec_frame_of_writeReg_with {i : Instr} {s : State} {d : RegIdx} {v : Word} {P : Word → Prop}
    (hexec : exec i s = writeReg d v s) (hvalue : P v) :
    ∃ t u, exec i s = .next t ∧ t.pc = s.pc + 1 ∧ OnlyRegWritten s t d u ∧ P u := by
  obtain ⟨t, ht, hpc, hframe⟩ := exec_frame_of_writeReg hexec rfl
  exact ⟨t, v, ht, hpc, hframe, hvalue⟩

/-! ## The values the rules state -/

/-- The sum wraps alike for the signed and the unsigned reading (R129). -/
theorem addWrap_eq_ofNat (a b : Word) : addWrap a b = BitVec.ofNat 32 (a.toNat + b.toNat) := by
  rw [addWrap_eq, BitVec.ofNat_add, BitVec.ofNat_toNat, BitVec.ofNat_toNat, BitVec.setWidth_eq,
    BitVec.setWidth_eq]

/-- The difference wraps alike for the signed and the unsigned reading (R129). -/
theorem subWrap_eq_ofInt (a b : Word) : subWrap a b = BitVec.ofInt 32 (a.toNat - b.toNat) := by
  rw [subWrap_eq]
  apply BitVec.eq_of_toNat_eq
  rw [BitVec.toNat_sub, BitVec.toNat_ofInt]
  have := b.isLt
  omega

/-- Sign extension keeps the signed reading (00_scope.md R10). -/
@[simp] theorem toInt_sext32 (v : BitVec 16) : (sext32 v).toInt = v.toInt :=
  BitVec.toInt_signExtend_of_le (by decide)

theorem addWrap_sext32 (a : Word) (v : BitVec 16) :
    addWrap a (sext32 v) = BitVec.ofInt 32 (a.toInt + v.toInt) := by
  rw [addWrap, trunc32, s32, s32, toInt_sext32]

/-- Zero extension gives zero from bit 16 up (00_scope.md R10). -/
theorem getLsbD_zext32 (v : BitVec 16) {k : Nat} (hk : k < 32) :
    (zext32 v).getLsbD k = (k < 16 && v.getLsbD k) := by
  by_cases h : k < 16
  · simp [zext32, hk, h]
  · simp [zext32, h, BitVec.getLsbD_of_ge v k (by omega)]

theorem boolWord_lessThan (a b : Word) : boolWord (lessThan a b) = if a.toInt < b.toInt then 1 else 0 := by
  simp [boolWord, lessThan]

theorem boolWord_lessThan_sext32 (a : Word) (v : BitVec 16) :
    boolWord (lessThan a (sext32 v)) = if a.toInt < v.toInt then 1 else 0 := by
  rw [boolWord_lessThan, toInt_sext32]

theorem upperImm_eq_ofNat (v : BitVec 16) : upperImm v = BitVec.ofNat 32 (v.toNat * 65536) := by
  rw [upperImm, trunc32, ← BitVec.ofInt_natCast]
  norm_cast

/-! ## The obligations -/

/-- Settles O28: both are the wrapped sum, which the unsigned reading gives too. -/
theorem addWritesTheWrappedSum : Obligations.AddWritesTheWrappedSum := by
  intro s rd rs rt shamt
  refine ⟨readsAs_wordR_regs (m := .add) rs rt rd shamt (.inl rfl) rfl fun _ => rfl,
    readsAs_wordR_regs (m := .addu) rs rt rd shamt (.inl rfl) rfl fun _ => rfl, ?_⟩
  rintro i (rfl | rfl)
  · exact exec_frame_of_writeReg rfl (addWrap_eq_ofNat _ _)
  · exact exec_frame_of_writeReg rfl (addWrap_eq_ofNat _ _)

/-- Settles O29: sign extension keeps the signed reading of the immediate, in `addiu` too. -/
theorem addImmediateWritesTheWrappedSum : Obligations.AddImmediateWritesTheWrappedSum := by
  intro s rt rs imm16
  refine ⟨readsAs_wordI_regs (m := .addi) rs rt imm16 rfl rfl rfl fun _ => rfl,
    readsAs_wordI_regs (m := .addiu) rs rt imm16 rfl rfl rfl fun _ => rfl, ?_⟩
  rintro i (rfl | rfl)
  · exact exec_frame_of_writeReg rfl (addWrap_sext32 _ _)
  · exact exec_frame_of_writeReg rfl (addWrap_sext32 _ _)

/-- Settles O30: both are the wrapped difference, which the unsigned reading gives too. -/
theorem subWritesTheWrappedDifference : Obligations.SubWritesTheWrappedDifference := by
  intro s rd rs rt shamt
  refine ⟨readsAs_wordR_regs (m := .sub) rs rt rd shamt (.inl rfl) rfl fun _ => rfl,
    readsAs_wordR_regs (m := .subu) rs rt rd shamt (.inl rfl) rfl fun _ => rfl, ?_⟩
  rintro i (rfl | rfl)
  · exact exec_frame_of_writeReg rfl (subWrap_eq_ofInt _ _)
  · exact exec_frame_of_writeReg rfl (subWrap_eq_ofInt _ _)

/-- Settles O31: each value is the bit-vector operation of its name, the complement over 32 bits. -/
theorem logicWritesEveryBit : Obligations.LogicWritesEveryBit := by
  intro s rd rs rt shamt
  refine ⟨readsAs_wordR_regs (m := .and) rs rt rd shamt (.inl rfl) rfl fun _ => rfl,
    readsAs_wordR_regs (m := .or) rs rt rd shamt (.inl rfl) rfl fun _ => rfl,
    readsAs_wordR_regs (m := .nor) rs rt rd shamt (.inl rfl) rfl fun _ => rfl,
    readsAs_wordR_regs (m := .xor) rs rt rd shamt (.inl rfl) rfl fun _ => rfl, ?_⟩
  rintro i f (⟨rfl, rfl⟩ | ⟨rfl, rfl⟩ | ⟨rfl, rfl⟩ | ⟨rfl, rfl⟩)
  · exact exec_frame_of_writeReg_with rfl fun _ _ => BitVec.getLsbD_and
  · exact exec_frame_of_writeReg_with rfl fun _ _ => BitVec.getLsbD_or
  · exact exec_frame_of_writeReg_with rfl fun k hk => by
      rw [BitVec.getLsbD_not, BitVec.getLsbD_or, decide_eq_true hk, Bool.true_and]
  · exact exec_frame_of_writeReg_with rfl fun _ _ => BitVec.getLsbD_xor

/-- Settles O32: as O31, with the zero-extended immediate as the second operand. -/
theorem logicImmediateWritesEveryBit : Obligations.LogicImmediateWritesEveryBit := by
  intro s rt rs imm16
  refine ⟨readsAs_wordI_regs (m := .andi) rs rt imm16 rfl rfl rfl fun _ => rfl,
    readsAs_wordI_regs (m := .ori) rs rt imm16 rfl rfl rfl fun _ => rfl,
    readsAs_wordI_regs (m := .xori) rs rt imm16 rfl rfl rfl fun _ => rfl, ?_⟩
  rintro i f (⟨rfl, rfl⟩ | ⟨rfl, rfl⟩ | ⟨rfl, rfl⟩)
  · exact exec_frame_of_writeReg_with rfl fun _ hk => by rw [BitVec.getLsbD_and, getLsbD_zext32 _ hk]
  · exact exec_frame_of_writeReg_with rfl fun _ hk => by rw [BitVec.getLsbD_or, getLsbD_zext32 _ hk]
  · exact exec_frame_of_writeReg_with rfl fun _ hk => by rw [BitVec.getLsbD_xor, getLsbD_zext32 _ hk]

/-- Settles O33: both compare the signed readings. -/
theorem setOnLessThanIsSigned : Obligations.SetOnLessThanIsSigned := by
  intro s rd rs rt shamt
  refine ⟨readsAs_wordR_regs (m := .slt) rs rt rd shamt (.inl rfl) rfl fun _ => rfl,
    readsAs_wordR_regs (m := .sltu) rs rt rd shamt (.inl rfl) rfl fun _ => rfl, ?_⟩
  rintro i (rfl | rfl)
  · exact exec_frame_of_writeReg rfl (boolWord_lessThan _ _)
  · exact exec_frame_of_writeReg rfl (boolWord_lessThan _ _)

/-- Settles O34: both compare the signed readings, which sign extension keeps. -/
theorem setOnLessThanImmediateIsSigned : Obligations.SetOnLessThanImmediateIsSigned := by
  intro s rt rs imm16
  refine ⟨readsAs_wordI_regs (m := .slti) rs rt imm16 rfl rfl rfl fun _ => rfl,
    readsAs_wordI_regs (m := .sltiu) rs rt imm16 rfl rfl rfl fun _ => rfl, ?_⟩
  rintro i (rfl | rfl)
  · exact exec_frame_of_writeReg rfl (boolWord_lessThan_sext32 _ _)
  · exact exec_frame_of_writeReg rfl (boolWord_lessThan_sext32 _ _)

/-- Settles O35: the decoder drops the `rs` field, and the value is the immediate times 2^16. -/
theorem luiWritesTheUpperHalf : Obligations.LuiWritesTheUpperHalf := fun _ rs rt imm16 =>
  ⟨readsAs_wordI_regs (m := .lui) (mk := fun rt _ imm16 => .lui rt imm16) rs rt imm16 rfl rfl rfl
      fun _ => rfl,
    exec_frame_of_writeReg rfl (upperImm_eq_ofNat imm16)⟩

theorem exec_add_comm (rd rs rt : RegIdx) (s : State) :
    exec (.add rd rs rt) s = exec (.add rd rt rs) s := by
  have hsum : addWrap (s.reg rs) (s.reg rt) = addWrap (s.reg rt) (s.reg rs) := by
    rw [addWrap_eq, addWrap_eq, BitVec.add_comm]
  exact congrArg (writeReg rd · s) hsum

theorem subWrap_eq_neg_swap (a b : Word) : subWrap a b = -subWrap b a := by
  rw [subWrap_eq, subWrap_eq, neg_sub]

/-- Settles O36: swapping the sources keeps the sum and negates the difference; zero, which `x[0]` reads
after either order, is its own negation. -/
theorem addCommutesAndSubNegates : Obligations.AddCommutesAndSubNegates := by
  intro s rd rs rt
  constructor
  · obtain ⟨t, ht, -, -⟩ := writeReg_frame rd (addWrap (s.reg rs) (s.reg rt)) s
    exact ⟨t, ht, (exec_add_comm rd rt rs s).trans ht⟩
  · obtain ⟨t, ht, -, hw⟩ := writeReg_frame rd (subWrap (s.reg rs) (s.reg rt)) s
    obtain ⟨t', ht', -, hw'⟩ := writeReg_frame rd (subWrap (s.reg rt) (s.reg rs)) s
    refine ⟨t, t', ht, ht', ?_⟩
    rw [hw.regs, hw'.regs, if_pos rfl, if_pos rfl]
    split
    next => rfl
    next => exact subWrap_eq_neg_swap _ _

end Sys2Proof.Machine
end

section
/-! The shifts (41_shift.md R141 to R147): each instruction is one `writeReg`, and the bit laws are read off
the bit-vector shifts the handlers' arithmetic equals (`shiftLeft_eq`, `shiftRightU_eq`, `shiftRightS_eq`). -/

namespace Sys2Proof.Machine

/-! ## Reading the rows with a `shamt` operand -/

/-- A REGISTER row whose operands are among `rd`, `rs`, `rt` and `shamt`. -/
theorem readsAs_wordR_shamt {base : Word} {m : Mnemonic}
    {mk : RegIdx → RegIdx → RegIdx → BitVec 5 → Instr} (rs rt rd : RegIdx) (shamt : BitVec 5)
    (hf : m.family = .register) (hb : base = encodeR 0 0 0 0 0 (Enc.default.funct m))
    (hm : ∀ w, assemble w m = mk (rdField w) (rsField w) (rtField w) (shamtField w)) :
    ReadsAs (wordR base rs rt rd shamt) .register (mk rd rs rt shamt) :=
  hf ▸ readsAs_wordR (.inl hf) hb <| by
    rw [hm, rdField_encodeR, rsField_encodeR, rtField_encodeR, shamtField_encodeR]

/-! ## The values the rules state -/

/-- The count of a variable shift is `x[rs]` modulo 32 (R140). -/
@[simp] theorem toNat_shiftCount (v : Word) : (shiftCount v).toNat = v.toNat % 32 :=
  (extract_toNat v 0 5).trans (by simp)

theorem shiftLeft_eq_ofNat (v : Word) (n : BitVec 5) :
    shiftLeft v n = BitVec.ofNat 32 (v.toNat * 2 ^ n.toNat) := by
  rw [shiftLeft, trunc32, u32, ← BitVec.ofInt_natCast]
  norm_cast

theorem shiftRightS_eq_ofInt (v : Word) (n : BitVec 5) :
    shiftRightS v n = BitVec.ofInt 32 (v.toInt / 2 ^ n.toNat) := by
  rw [shiftRightS, trunc32, s32, Int.fdiv_eq_ediv_of_nonneg _ (by positivity)]

/-! ## The bits of a shifted word (R147) -/

theorem getLsbD_shiftLeft_of_lt (v : Word) {n : BitVec 5} {k : Nat} (hk : k < n.toNat) :
    (shiftLeft v n).getLsbD k = false := by
  simp [shiftLeft_eq, hk]

theorem getLsbD_shiftRightU_of_le (v : Word) {n : BitVec 5} {k : Nat} (hk : 32 - n.toNat ≤ k) :
    (shiftRightU v n).getLsbD k = false := by
  rw [shiftRightU_eq, BitVec.getLsbD_ushiftRight]
  exact BitVec.getLsbD_of_ge v _ (by omega)

/-- From bit `31 - n` up, a signed shift shows the sign: that bit is the moved bit 31, the ones above it are
filled in. -/
theorem getLsbD_shiftRightS_of_le (v : Word) {n : BitVec 5} {k : Nat} (hk : 31 - n.toNat ≤ k)
    (hk' : k < 32) : (shiftRightS v n).getLsbD k = v.getLsbD 31 := by
  rw [shiftRightS_eq, BitVec.getLsbD_sshiftRight]
  by_cases hmoved : n.toNat + k < 32
  · have h31 : n.toNat + k = 31 := by omega
    simp [hk', h31]
  · simp [hk', hmoved, BitVec.msb_eq_getLsbD_last]

/-- Left and back right: the bits below `32 - n` return to their places, the ones above were lost. -/
theorem getLsbD_shiftRightU_shiftLeft (v : Word) (n : BitVec 5) (k : Nat) :
    (shiftRightU (shiftLeft v n) n).getLsbD k = (decide (k < 32 - n.toNat) && v.getLsbD k) := by
  by_cases hk : k < 32 - n.toNat
  · have hin : n.toNat + k < 32 := by omega
    rw [shiftRightU_eq, shiftLeft_eq, BitVec.getLsbD_ushiftRight, BitVec.getLsbD_shiftLeft]
    simp [hk, hin]
  · rw [getLsbD_shiftRightU_of_le _ (by omega), decide_eq_false hk, Bool.false_and]

/-! ## The obligations -/

/-- Settles O37: the shift by the constant is the multiplication or floor division the rule states. -/
theorem constantShiftsWriteTheShiftedSource : Obligations.ConstantShiftsWriteTheShiftedSource := by
  intro s rd rs rt shamt
  refine ⟨⟨?_, exec_frame_of_writeReg rfl (shiftLeft_eq_ofNat _ _)⟩,
    ⟨?_, exec_frame_of_writeReg rfl rfl⟩,
    ⟨?_, exec_frame_of_writeReg rfl (shiftRightS_eq_ofInt _ _)⟩⟩
  · exact readsAs_wordR_shamt (m := .sll) (mk := fun rd _ rt shamt => .sll rd rt shamt) rs rt rd shamt
      rfl rfl fun _ => rfl
  · exact readsAs_wordR_shamt (m := .srl) (mk := fun rd rs _ shamt => .srl rd rs shamt) rs rt rd shamt
      rfl rfl fun _ => rfl
  · exact readsAs_wordR_shamt (m := .sra) (mk := fun rd _ rt shamt => .sra rd rt shamt) rs rt rd shamt
      rfl rfl fun _ => rfl

/-- Settles O38: the same values as in O37, with the low five bits of `x[rs]` read as `x[rs]` modulo 32. -/
theorem variableShiftsUseFiveBits : Obligations.VariableShiftsUseFiveBits := by
  intro s rd rs rt shamt
  refine ⟨⟨?_, exec_frame_of_writeReg rfl ?_⟩, ⟨?_, exec_frame_of_writeReg rfl ?_⟩,
    ⟨?_, exec_frame_of_writeReg rfl ?_⟩⟩
  · exact readsAs_wordR_regs (m := .sllv) (mk := fun rd rs rt => .sllv rd rt rs) rs rt rd shamt
      (.inl rfl) rfl fun _ => rfl
  · rw [shiftLeft_eq_ofNat, toNat_shiftCount]
  · exact readsAs_wordR_regs (m := .srlv) (mk := fun rd rs rt => .srlv rd rt rs) rs rt rd shamt
      (.inl rfl) rfl fun _ => rfl
  · rw [shiftRightU, toNat_shiftCount]
  · exact readsAs_wordR_regs (m := .srav) (mk := fun rd rs rt => .srav rd rt rs) rs rt rd shamt
      (.inl rfl) rfl fun _ => rfl
  · rw [shiftRightS_eq_ofInt, toNat_shiftCount]

/-- Settles O39: each law is one of the bit lemmas above, and a bit-vector shift by zero copies. -/
theorem shiftLaws : Obligations.ShiftLaws := by
  intro v n
  refine ⟨fun k => getLsbD_shiftLeft_of_lt v, fun k => getLsbD_shiftRightU_of_le v,
    fun k => getLsbD_shiftRightS_of_le v, getLsbD_shiftRightU_shiftLeft v n, ?_, ?_, ?_⟩
  · exact (shiftRightU_eq v 0).trans (BitVec.ushiftRight_zero v)
  · exact (shiftRightS_eq v 0).trans BitVec.sshiftRight_zero
  · exact (shiftLeft_eq v 0).trans (BitVec.shiftLeft_zero v)

end Sys2Proof.Machine
end

section
/-! Multiply, divide and the accumulator moves (42_muldiv.md R151 to R160): each instruction is one `writeAcc`,
one `writeReg`, or a failure before any write, so what is left to say is when a division fails and which
values are written. -/

namespace Sys2Proof.Machine

/-! ## The effect of an instruction that writes the accumulators -/

/-- The frame of `writeAcc`, with the values in the form a rule states them. -/
theorem exec_frame_of_writeAcc {i : Instr} {s : State} {u v h l : Word}
    (hexec : exec i s = writeAcc u v s) (hhi : u = h) (hlo : v = l) :
    ∃ t, exec i s = .next t ∧ t.pc = s.pc + 1 ∧ OnlyAccWritten s t h l := by
  rw [hexec, hhi, hlo]
  exact writeAcc_frame h l s

/-- `mul` is one register write on the state whose accumulators already hold the product (R159). -/
theorem exec_mul_frame (rd rs rt : RegIdx) {s : State} {p : Word}
    (hp : mulWrap (s.reg rs) (s.reg rt) = p) :
    ∃ t, exec (.mul rd rs rt) s = .next t ∧ t.pc = s.pc + 1 ∧
      (∀ r, t.reg r = if r = 0 then 0 else if r = rd then p else s.reg r) ∧
      t.hi = p ∧ t.lo = p ∧ StatusKept s t ∧ BufferKept s t := by
  subst hp
  obtain ⟨t, ht, hpc, hw⟩ := writeReg_frame rd (mulWrap (s.reg rs) (s.reg rt))
    ((s.setHi (mulWrap (s.reg rs) (s.reg rt))).setLo (mulWrap (s.reg rs) (s.reg rt)))
  exact ⟨t, ht, hpc, hw.regs, hw.hi, hw.lo, ⟨hw.status.run, hw.status.fail, hw.status.out⟩,
    .of_eq hw.buffer.cells hw.buffer.progLen hw.buffer.cfg hw.buffer.steps⟩

/-! ## The product (R160) -/

theorem toNat_mulWrap (a b : Word) : (mulWrap a b).toNat = a.toNat * b.toNat % 2 ^ 32 := by
  rw [mulWrap_eq, BitVec.toNat_mul]

/-- The low word of the product is the same for the signed and the unsigned reading. -/
theorem natCast_toNat_mulWrap (a b : Word) :
    ((mulWrap a b).toNat : Int) = a.toInt * b.toInt % 2 ^ 32 := by
  rw [mulWrap, trunc32, BitVec.toNat_ofInt]
  exact Int.toNat_of_nonneg (Int.emod_nonneg _ (by decide))

theorem mulWrap_eq_ofNat (a b : Word) : mulWrap a b = BitVec.ofNat 32 (a.toNat * b.toNat) :=
  BitVec.eq_of_toNat_eq <| by rw [toNat_mulWrap, BitVec.toNat_ofNat]

theorem mulWrap_zero (a : Word) : mulWrap a 0 = 0 := by
  rw [mulWrap_eq, mul_zero]

theorem mulWrap_one (a : Word) : mulWrap a 1 = a := by
  rw [mulWrap_eq, mul_one]

theorem mulWrap_all_ones (a : Word) : mulWrap a 0xFFFFFFFF = -a := by
  rw [mulWrap_eq, show (0xFFFFFFFF : Word) = -1 by decide, mul_neg_one]

/-! ## When a division fails (R153) -/

/-- The two causes exclude each other: they name different divisors. -/
theorem DivisionFails.cause_unique {s : State} {rs rt : RegIdx} {c c' : ArithCause}
    (h : DivisionFails s rs rt c) (h' : DivisionFails s rs rt c') : c = c' := by
  have hne : (0 : Word) ≠ 0xFFFFFFFF := by decide
  cases c <;> cases c'
  case divisionByZero.divisionOverflow => exact absurd (h.symm.trans h'.2) hne
  case divisionOverflow.divisionByZero => exact absurd (h'.symm.trans h.2) hne
  all_goals rfl

theorem divide_of_fails {s : State} {rs rt : RegIdx} {c : ArithCause} (h : DivisionFails s rs rt c) :
    divide rs rt s = failWith (.arithmeticFault c s.pc) s := by
  rcases divide_cases rs rt s with ⟨c', hc', hdiv⟩ | ⟨hnone, -⟩
  · rw [hdiv, hc'.cause_unique h]
  · exact absurd h (hnone c)

theorem divide_of_not_fails {s : State} {rs rt : RegIdx} (h : ∀ c, ¬ DivisionFails s rs rt c) :
    divide rs rt s = writeAcc (remainder (s.reg rs) (s.reg rt)) (quotient (s.reg rs) (s.reg rt)) s := by
  rcases divide_cases rs rt s with ⟨c, hc, -⟩ | ⟨-, hdiv⟩
  · exact absurd hc (h c)
  · exact hdiv

theorem remainder_eq_ofInt (a b : Word) : remainder a b = BitVec.ofInt 32 (a.toInt.tmod b.toInt) := by
  rw [remainder_eq, ← BitVec.toInt_srem, BitVec.ofInt_toInt]

/-! ## The obligations -/

/-- Settles O40: the handlers multiply the signed readings, whose product has the same low word. -/
theorem multWritesBothAccumulators : Obligations.MultWritesBothAccumulators := by
  intro s rs rt rd shamt
  refine ⟨readsAs_wordR_regs (m := .mult) (mk := fun _ rs rt => .mult rs rt) rs rt rd shamt (.inl rfl) rfl
      fun _ => rfl,
    readsAs_wordR_regs (m := .multu) (mk := fun _ rs rt => .multu rs rt) rs rt rd shamt (.inl rfl) rfl
      fun _ => rfl, ?_⟩
  rintro i (rfl | rfl)
  · exact exec_frame_of_writeAcc rfl (mulWrap_eq_ofNat _ _) (mulWrap_eq_ofNat _ _)
  · exact exec_frame_of_writeAcc rfl (mulWrap_eq_ofNat _ _) (mulWrap_eq_ofNat _ _)

/-- Settles O41: `div` and `divu` are the one signed division, whose three outcomes are the three clauses. -/
theorem divideOrFail : Obligations.DivideOrFail := by
  intro s rs rt rd shamt
  refine ⟨readsAs_wordR_regs (m := .div) (mk := fun _ rs rt => .div rs rt) rs rt rd shamt (.inl rfl) rfl
      fun _ => rfl,
    readsAs_wordR_regs (m := .divu) (mk := fun _ rs rt => .divu rs rt) rs rt rd shamt (.inl rfl) rfl
      fun _ => rfl, fun i hi => ?_⟩
  have hexec : exec i s = divide rs rt s := by rcases hi with rfl | rfl <;> rfl
  refine ⟨fun hnonzero hnoOverflow => ?_, fun hzero => ?_, fun hmin hminusOne => ?_⟩
  · have hcompletes : ∀ c, ¬ DivisionFails s rs rt c
      | .divisionByZero => hnonzero
      | .divisionOverflow => hnoOverflow
    exact exec_frame_of_writeAcc (hexec.trans (divide_of_not_fails hcompletes)) (remainder_eq_ofInt _ _) rfl
  · rw [hexec, divide_of_fails (c := .divisionByZero) hzero]
    exact failWith_frame _ s
  · rw [hexec, divide_of_fails (c := .divisionOverflow) ⟨hmin, hminusOne⟩]
    exact failWith_frame _ s

/-- Settles O43: each is one register write, of an accumulator. -/
theorem moveFromAccumulator : Obligations.MoveFromAccumulator := by
  intro s rd rs rt shamt
  refine ⟨⟨?_, writeReg_frame rd s.hi s⟩, ⟨?_, writeReg_frame rd s.lo s⟩⟩
  · exact readsAs_wordR_regs (m := .mfhi) (mk := fun rd _ _ => .mfhi rd) rs rt rd shamt (.inl rfl) rfl
      fun _ => rfl
  · exact readsAs_wordR_regs (m := .mflo) (mk := fun rd _ _ => .mflo rd) rs rt rd shamt (.inl rfl) rfl
      fun _ => rfl

/-- Settles O44: each is a write of both accumulators that writes one of them back. -/
theorem moveToAccumulator : Obligations.MoveToAccumulator := by
  intro s rd rs rt shamt
  refine ⟨⟨?_, writeAcc_frame (s.reg rd) s.lo s⟩, ⟨?_, writeAcc_frame s.hi (s.reg rd) s⟩⟩
  · exact readsAs_wordR_regs (m := .mthi) (mk := fun rd _ _ => .mthi rd) rs rt rd shamt (.inl rfl) rfl
      fun _ => rfl
  · exact readsAs_wordR_regs (m := .mtlo) (mk := fun rd _ _ => .mtlo rd) rs rt rd shamt (.inl rfl) rfl
      fun _ => rfl

/-- Settles O45: the frame of `mul`, at the low word of the unsigned product. -/
theorem mulWritesRegisterAndAccumulators : Obligations.MulWritesRegisterAndAccumulators :=
  fun _ rd rs rt shamt =>
    ⟨readsAs_wordR_regs (m := .mul) rs rt rd shamt (.inr rfl) rfl fun _ => rfl,
      fun _ hp => exec_mul_frame rd rs rt ((mulWrap_eq_ofNat _ _).trans hp.symm)⟩

/-- Settles O46: every value in the law is `mulWrap` of the two registers, or 0 where `rd` is register 0. -/
theorem multiplicationLaw : Obligations.MultiplicationLaw := by
  intro s rd rs rt
  obtain ⟨t, ht, -, hmult⟩ :=
    writeAcc_frame (mulWrap (s.reg rs) (s.reg rt)) (mulWrap (s.reg rs) (s.reg rt)) s
  obtain ⟨u, hu, -, hmflo⟩ := writeReg_frame rd t.lo t
  obtain ⟨v, hv, -, hregs, hhi, hlo, -, -⟩ := exec_mul_frame rd rs rt (s := s) rfl
  refine ⟨t, u, v, ht, hu, hv, ht, ?_, ?_, hhi.trans hlo.symm, hlo.trans hmult.lo.symm, ?_⟩
  · rw [hmflo.regs, hregs, if_pos rfl, if_pos rfl, hmult.lo]
  · rw [hmflo.hi, hmflo.lo, hmult.hi, hmult.lo]
  · rw [hmult.lo]
    exact ⟨toNat_mulWrap _ _, natCast_toNat_mulWrap _ _, fun h => by rw [h, mulWrap_zero],
      fun h => by rw [h, mulWrap_one], fun h => by rw [h, mulWrap_all_ones]⟩

end Sys2Proof.Machine
end

section
/-! Loads and stores (43_loadstore.md R165 to R172): the core has no data memory, so each instruction is one
`writeReg` of a register's whole value, and neither the value nor the frame depends on the immediate. -/

namespace Sys2Proof.Machine

/-- A row written `rt`, `off(rs)`: the operands of the load and store rows (R166 to R171). -/
theorem readsAs_wordI_offset {base : Word} {m : Mnemonic} {mk : RegIdx → BitVec 16 → RegIdx → Instr}
    (rt : RegIdx) (imm16 : BitVec 16) (rs : RegIdx) (hf : m.family = .immediate)
    (hk : Enc.default.rtKey m = none) (hb : base = encodeI (Enc.default.op m) 0 0 0)
    (hm : ∀ w, assemble w m = mk (rtField w) (imm16Field w) (rsField w)) :
    ReadsAs (wordI base rs rt imm16) .immediate (mk rt imm16 rs) :=
  readsAs_wordI_regs (mk := fun rt rs imm16 => mk rt imm16 rs) rs rt imm16 hf hk hb hm

/-- Settles O47: each load is the register write of `x[rs]` to `x[rt]`. -/
theorem loadsCopyTheWholeRegister : Obligations.LoadsCopyTheWholeRegister := by
  intro s rt rs imm16
  refine ⟨readsAs_wordI_offset (m := .lb) rt imm16 rs rfl rfl rfl fun _ => rfl,
    readsAs_wordI_offset (m := .lh) rt imm16 rs rfl rfl rfl fun _ => rfl,
    readsAs_wordI_offset (m := .lw) rt imm16 rs rfl rfl rfl fun _ => rfl, ?_⟩
  rintro i (rfl | rfl | rfl)
  · exact writeReg_frame rt (s.reg rs) s
  · exact writeReg_frame rt (s.reg rs) s
  · exact writeReg_frame rt (s.reg rs) s

/-- Settles O48: each store is the register write of `x[rt]` to `x[rs]`, the would-be base register. -/
theorem storesCopyTheWholeRegister : Obligations.StoresCopyTheWholeRegister := by
  intro s rt rs imm16
  refine ⟨readsAs_wordI_offset (m := .sb) rt imm16 rs rfl rfl rfl fun _ => rfl,
    readsAs_wordI_offset (m := .sh) rt imm16 rs rfl rfl rfl fun _ => rfl,
    readsAs_wordI_offset (m := .sw) rt imm16 rs rfl rfl rfl fun _ => rfl, ?_⟩
  rintro i (rfl | rfl | rfl)
  · exact writeReg_frame rs (s.reg rt) s
  · exact writeReg_frame rs (s.reg rt) s
  · exact writeReg_frame rs (s.reg rt) s

end Sys2Proof.Machine
end

section
/-! Branches and jumps (44_control.md R175 to R185, and `break`, 45_system.md R196): each instruction is one
`jumpTo`, for `jalr` on the state that already holds the link, so what is left to say is which index it goes
to and which words of the jump layout are malformed. -/

namespace Sys2Proof.Machine

/-! ## Reading the rows -/

/-- A row with an `rt` sub-key, whose operands are the fields `rs` and `imm16` (R86). -/
theorem readsAs_wordI_key_regs {base : Word} {m : Mnemonic} {k : BitVec 5}
    {mk : RegIdx → BitVec 16 → Instr} (rs : RegIdx) (imm16 : BitVec 16) (hf : m.family = .immediate)
    (hk : Enc.default.rtKey m = some k) (hb : base = encodeI (Enc.default.op m) 0 k 0)
    (hm : ∀ w, assemble w m = mk (rsField w) (imm16Field w)) :
    ReadsAs (wordI base rs 0 imm16) .immediate (mk rs imm16) :=
  readsAs_wordI_key hf hk hb <| by rw [hm, rsField_encodeI, imm16Field_encodeI]

/-- The bits the jump mask examines are zero exactly where `addr` is legal (R88). -/
theorem jumpMask_encodeJ_iff (op : BitVec 6) (addr : BitVec 26) :
    (encodeJ op addr).extractLsb' 5 21 = 0 ↔ addrLegal addr = true := by
  refine ⟨fun hzero => ?_, Laws.FieldsReturn.addr_high_zero op⟩
  have hzero := congrArg BitVec.toNat hzero
  rw [extract_toNat, encodeJ_toNat] at hzero
  simp [addrLegal] at hzero ⊢
  omega

theorem readsAs_wordJ {base : Word} {m : Mnemonic} {mk : BitVec 26 → Instr} {addr : BitVec 26}
    (hf : m.family = .jump) (hb : base = encodeJ (Enc.default.op m) 0) (ha : addrLegal addr = true)
    (hm : ∀ w, assemble w m = mk (addrField w)) :
    ReadsAs (wordJ base addr) .jump (mk addr) := by
  have hkey : Enc.default.keyHolds (encodeJ (Enc.default.op m) addr) m := by
    simpa [Enc.keyHolds, hf] using (jumpMask_encodeJ_iff _ _).2 ha
  simpa only [hf, hm, hb, wordJ_eq, addrField_encodeJ] using readsAs_of_keyHolds hkey

/-- A word of the jump layout with `addr` above 31 is of class (d) of R97. -/
theorem decode_error_of_illegal_addr {p : BitVec 6} {addr : BitVec 26} (hp : p = 0x02 ∨ p = 0x03)
    (ha : ¬ addrLegal addr = true) : ∃ r, decode Enc.default (wordJ (encodeJ p 0) addr) = .error r := by
  rw [wordJ_eq, exists_decode_error_iff Enc.default_wf, classify_invalid_iff, opField_encodeJ,
    default_jump_op_iff]
  exact .inr (.inr (.inr ⟨hp, mt (jumpMask_encodeJ_iff p addr).1 ha⟩))

/-! ## The effect of an instruction that only sets `pc` -/

/-- The frame of `jumpTo`, with the index in the form a rule states it. -/
theorem exec_frame_of_jumpTo {i : Instr} {s : State} {p q : Word} (hexec : exec i s = jumpTo p s)
    (hindex : p = q) : ∃ t, exec i s = .next t ∧ OnlyPcWritten s t ∧ t.pc = q := by
  obtain ⟨t, ht, hpc, hframe⟩ := jumpTo_frame p s
  exact ⟨t, hexec.trans ht, hframe, hpc.trans hindex⟩

/-- Sign extension keeps the displacement, so a branch goes to `pc` plus the signed immediate (R175). -/
theorem branchTarget_eq_ofInt (pc : Word) (imm16 : BitVec 16) :
    branchTarget pc imm16 = BitVec.ofInt 32 (pc.toNat + imm16.toInt) := by
  rw [branchTarget, trunc32, u32, s32, toInt_sext32]

/-- A branch whose test is `P` sets `pc` on both paths (R175, R245). -/
theorem exec_frame_of_branch {i : Instr} {s : State} {taken : Bool} {imm16 : BitVec 16} {P : Prop}
    [Decidable P] (hexec : exec i s = branch taken imm16 s) (htaken : taken = true ↔ P) :
    ∃ t, exec i s = .next t ∧ OnlyPcWritten s t ∧
      t.pc = if P then BitVec.ofInt 32 (s.pc.toNat + imm16.toInt) else s.pc + 1 :=
  exec_frame_of_jumpTo hexec <| by rw [if_congr htaken (branchTarget_eq_ofInt _ _) rfl]

theorem jumpThrough_of_legal {addr : BitVec 26} (ha : addrLegal addr = true) (w : Word) (s : State) :
    jumpThrough w addr s = jumpTo (s.reg (addrReg addr)) s :=
  if_pos ha

theorem addrReg_eq_ofNat (addr : BitVec 26) : addrReg addr = BitVec.ofNat 5 addr.toNat :=
  BitVec.eq_of_toNat_eq <| by simp [addrReg]

/-- A jump out of a state whose last write was `x[d] <- v` adds nothing to that write but `pc`. -/
theorem OnlyPcWritten.onlyRegWritten {s t : State} {d : RegIdx} {v : Word}
    (h : OnlyPcWritten (s.setReg d v) t) : OnlyRegWritten s t d v where
  regs r := by rw [h.regs, State.setReg_reg]
  hi := h.hi
  lo := h.lo
  status := ⟨h.status.run, h.status.fail, h.status.out⟩
  buffer := .of_eq h.buffer.cells h.buffer.progLen h.buffer.cfg h.buffer.steps

/-! ## The conditions the rules state -/

theorem equal_iff (a b : Word) : equal a b = true ↔ a = b :=
  beq_iff_eq

theorem not_equal_iff (a b : Word) : (!equal a b) = true ↔ a ≠ b := by
  rw [Bool.not_eq_true', ← Bool.not_eq_true, equal_iff]

theorem geZero_iff (a : Word) : geZero a = true ↔ 0 ≤ a.toInt :=
  decide_eq_true_iff

theorem gtZero_iff (a : Word) : gtZero a = true ↔ 0 < a.toInt :=
  decide_eq_true_iff

theorem leZero_iff (a : Word) : leZero a = true ↔ a.toInt ≤ 0 :=
  decide_eq_true_iff

theorem ltZero_iff (a : Word) : ltZero a = true ↔ a.toInt < 0 :=
  decide_eq_true_iff

/-! ## The obligations -/

/-- Settles O49: both are the one branch, on equal and on different patterns. -/
theorem equalityBranches : Obligations.EqualityBranches := by
  intro s rs rt imm16
  refine ⟨⟨?_, exec_frame_of_branch rfl (equal_iff _ _)⟩,
    ⟨?_, exec_frame_of_branch rfl (not_equal_iff _ _)⟩⟩
  · exact readsAs_wordI_regs (m := .beq) (mk := fun rt rs imm16 => .beq rs rt imm16) rs rt imm16 rfl rfl
      rfl fun _ => rfl
  · exact readsAs_wordI_regs (m := .bne) (mk := fun rt rs imm16 => .bne rs rt imm16) rs rt imm16 rfl rfl
      rfl fun _ => rfl

/-- Settles O50: the four are the one branch, each on its comparison of the signed `x[rs]` with zero. -/
theorem signBranches : Obligations.SignBranches := by
  intro s rs rt imm16
  refine ⟨⟨?_, exec_frame_of_branch rfl (geZero_iff _)⟩, ⟨?_, exec_frame_of_branch rfl (gtZero_iff _)⟩,
    ⟨?_, exec_frame_of_branch rfl (leZero_iff _)⟩, ⟨?_, exec_frame_of_branch rfl (ltZero_iff _)⟩⟩
  · exact readsAs_wordI_key_regs (m := .bgez) rs imm16 rfl rfl rfl fun _ => rfl
  · exact readsAs_wordI_regs (m := .bgtz) (mk := fun _ rs imm16 => .bgtz rs imm16) rs rt imm16 rfl rfl
      rfl fun _ => rfl
  · exact readsAs_wordI_regs (m := .blez) (mk := fun _ rs imm16 => .blez rs imm16) rs rt imm16 rfl rfl
      rfl fun _ => rfl
  · exact readsAs_wordI_key_regs (m := .bltz) rs imm16 rfl rfl rfl fun _ => rfl

/-- Settles O51: a legal `addr` names a register, and any other one spells a word the decoder rejects. -/
theorem jumpsGoThroughARegister : Obligations.JumpsGoThroughARegister := by
  intro s addr
  refine ⟨fun hle => ?_, fun hgt w hw => ?_⟩
  · have ha : addrLegal addr = true := decide_eq_true hle
    refine ⟨readsAs_wordJ (m := .j) rfl rfl ha fun _ => rfl,
      readsAs_wordJ (m := .jal) rfl rfl ha fun _ => rfl, ?_⟩
    rintro i (rfl | rfl)
    · exact exec_frame_of_jumpTo (jumpThrough_of_legal ha _ s) (congrArg s.reg (addrReg_eq_ofNat addr))
    · exact exec_frame_of_jumpTo (jumpThrough_of_legal ha _ s) (congrArg s.reg (addrReg_eq_ofNat addr))
  · have ha : ¬ addrLegal addr = true := by simpa [addrLegal] using hgt
    have herror : ∃ r, decode Enc.default w = .error r := by
      rcases hw with rfl | rfl
      · exact decode_error_of_illegal_addr (p := 0x02) (.inl rfl) ha
      · exact decode_error_of_illegal_addr (p := 0x03) (.inr rfl) ha
    refine ⟨herror, fun hcfg hlen hrun hprog hhalt henc hread => ?_⟩
    obtain ⟨r, hr⟩ := herror
    rw [step_of_decode_error ((admissible_iff s).2 ⟨hcfg, hlen⟩) hrun
      ((pcOutOfRange_eq_false_iff s).2 ⟨hprog, hhalt⟩) hread (henc ▸ hr)]
    exact failWith_frame _ s.tick

/-- Settles O53: each is the jump to a register's value, of the field `rs` and of the field `rd`. -/
theorem registerJumps : Obligations.RegisterJumps := by
  intro s rs rt rd shamt
  refine ⟨⟨?_, exec_frame_of_jumpTo rfl rfl⟩, ⟨?_, exec_frame_of_jumpTo rfl rfl⟩⟩
  · exact readsAs_wordR_regs (m := .jr) (mk := fun _ rs _ => .jr rs) rs rt rd shamt (.inl rfl) rfl
      fun _ => rfl
  · exact readsAs_wordR_regs (m := .brk) (mk := fun rd _ _ => .brk rd) rs rt rd shamt (.inl rfl) rfl
      fun _ => rfl

/-- Settles O54: the jump reads `x[rs]` from the state that already holds the link in `x[rd]`. -/
theorem jalrLinksItsOwnIndex : Obligations.JalrLinksItsOwnIndex := by
  intro s rd rs rt shamt
  refine ⟨readsAs_wordR_regs (m := .jalr) (mk := fun rd rs _ => .jalr rd rs) rs rt rd shamt (.inl rfl) rfl
    fun _ => rfl, ?_⟩
  obtain ⟨t, ht, hpc, hframe⟩ := jumpTo_frame ((s.setReg rd s.pc).reg rs) (s.setReg rd s.pc)
  exact ⟨t, ht, hframe.onlyRegWritten, hpc.trans (State.setReg_reg s rd s.pc rs)⟩

end Sys2Proof.Machine
end

section
/-! The services of `syscall` (45_system.md R197, R198): each arm ends the instruction at an index of its own,
after at most one event, and the unknown service then raises its failure. -/

namespace Sys2Proof.Machine

/-! ## What every service leaves unchanged -/

/-- Nothing changes but the output, `pc`, the run state and the failure record, which take the given values. -/
structure Served (s t : State) (out : List OutEvent) (pc : Word) (run : RunState)
    (fail : Option Failure) : Prop where
  regs : RegsKept s t
  hi : t.hi = s.hi
  lo : t.lo = s.lo
  buffer : BufferKept s t
  outcome : t.out = out ∧ t.pc = pc ∧ t.run = run ∧ t.fail = fail

theorem served_retireTo (s : State) (p : Word) : Served s (s.retireTo p) s.out p s.run s.fail :=
  ⟨fun r => by simp, rfl, rfl, .of_eq rfl rfl rfl rfl, rfl, rfl, rfl, rfl⟩

/-- An event appended before the end of the instruction changes nothing but the output (R33). -/
theorem served_emit_retireTo (s : State) (e : OutEvent) (p : Word) :
    Served s ((s.emit e).retireTo p) (s.out ++ [e]) p s.run s.fail where
  __ := served_retireTo (s.emit e) p
  buffer := .of_eq rfl rfl rfl rfl

/-- Raising a failure replaces only the run state and the failure record (60_exceptions.md R210). -/
theorem Served.raise {s t : State} {out : List OutEvent} {p : Word} {run : RunState}
    {fail : Option Failure} (h : Served s t out p run fail) (f : Failure) :
    Served s (t.raise f) out p .halted (some f) where
  __ := h
  buffer := .of_eq h.buffer.cells h.buffer.progLen h.buffer.cfg h.buffer.steps
  outcome := let ⟨hout, hpc, _, _⟩ := h.outcome; ⟨hout, hpc, rfl, rfl⟩

/-! ## The service table -/

section
variable {s : State}

theorem exec_syscall_printInt (h : s.reg s.cfg.syscallNumReg = 1) :
    ∃ t, exec .syscall s = .next t ∧
      Served s t (s.out ++ [.printInt (s.reg s.cfg.syscallArgReg)]) (s.pc + 1) s.run s.fail :=
  ⟨_, if_pos h, served_emit_retireTo s _ _⟩

theorem exec_syscall_exit (h : s.reg s.cfg.syscallNumReg = 10) :
    ∃ t, exec .syscall s = .next t ∧ Served s t s.out s.cfg.haltPc s.run s.fail :=
  ⟨_, (if_neg (by simp [h])).trans (if_pos h), served_retireTo s _⟩

/-- The character is the low byte of the argument (R198). -/
theorem exec_syscall_printChar (h : s.reg s.cfg.syscallNumReg = 11) :
    ∃ t, exec .syscall s = .next t ∧
      Served s t (s.out ++ [.printChar (BitVec.ofNat 8 (s.reg s.cfg.syscallArgReg).toNat)]) (s.pc + 1)
        s.run s.fail := by
  rw [BitVec.ofNat_toNat, BitVec.setWidth_eq_extractLsb' (by decide)]
  exact ⟨_, (if_neg (by simp [h])).trans ((if_neg (by simp [h])).trans (if_pos h)),
    served_emit_retireTo s _ _⟩

theorem exec_syscall_unknown (h1 : s.reg s.cfg.syscallNumReg ≠ 1)
    (h10 : s.reg s.cfg.syscallNumReg ≠ 10) (h11 : s.reg s.cfg.syscallNumReg ≠ 11) :
    ∃ t, exec .syscall s = .next t ∧
      Served s t (s.out ++ [.unknownSyscallMessage (s.reg s.cfg.syscallNumReg)]) s.cfg.haltPc .halted
        (some (.unknownSyscall (s.reg s.cfg.syscallNumReg) s.pc)) :=
  ⟨_, (if_neg h1).trans ((if_neg h10).trans (if_neg h11)), (served_emit_retireTo s _ _).raise _⟩

end

/-! ## The obligation -/

/-- Settles O55: one case for each row of the service table, whose number refutes the premises of the other
rows' clauses. -/
theorem syscallServices : Obligations.SyscallServices := by
  intro s rs rt rd shamt
  refine ⟨readsAs_wordR (m := .syscall) (.inr rfl) rfl rfl, rfl, rfl, ?_⟩
  rintro n a rfl rfl
  by_cases h1 : s.reg s.cfg.syscallNumReg = 1
  · obtain ⟨t, ht, h⟩ := exec_syscall_printInt h1
    exact ⟨t, ht, h.regs, h.hi, h.lo, h.buffer, by simp [h1, h.outcome]⟩
  by_cases h10 : s.reg s.cfg.syscallNumReg = 10
  · obtain ⟨t, ht, h⟩ := exec_syscall_exit h10
    exact ⟨t, ht, h.regs, h.hi, h.lo, h.buffer, by simp [h10, h.outcome]⟩
  by_cases h11 : s.reg s.cfg.syscallNumReg = 11
  · obtain ⟨t, ht, h⟩ := exec_syscall_printChar h11
    exact ⟨t, ht, h.regs, h.hi, h.lo, h.buffer, by simp [h11, h.outcome]⟩
  · obtain ⟨t, ht, h⟩ := exec_syscall_unknown h1 h10 h11
    exact ⟨t, ht, h.regs, h.hi, h.lo, h.buffer, fun e => absurd e h1, fun e => absurd e h10,
      fun e => absurd e h11, fun _ _ _ => h.outcome⟩

end Sys2Proof.Machine
end

section
/-! Reset and the first step after it (70_reset_and_hazards.md R235, R236), and the normal halt out of range
(R241): `step` on a state within the precondition whose halt test answers, and the halt test on a fresh load. -/

namespace Sys2Proof.Machine

/-- The third way through `step`, beside `step_of_decode` and `step_of_decode_error` (R240, R241). -/
theorem step_of_pcOutOfRange {s : State} (hadm : s.admissible = true) (hrun : s.run = .running)
    (hpc : s.pcOutOfRange = true) : step s = .next s.halt := by
  simp [step, hadm, hrun, hpc]

/-- The buffer has at least one cell, so loading a program that is not empty loads a word (R7, R238). -/
theorem load_cons_progLen_pos {s : State} (hcfg : s.cfg.wf = true) (w : Word) (ws : List Word) :
    0 < (s.load (w :: ws)).progLen := by
  obtain ⟨hcap, -, -⟩ := (config_wf_iff s.cfg).1 hcfg
  rw [State.load_progLen, List.length_take, List.length_cons]
  omega

/-- A load never leaves the precondition: what does not fit is cut (R238, log entry 15). -/
theorem load_admissible {s : State} (hcfg : s.cfg.wf = true) (ws : List Word) :
    (s.load ws).admissible = true :=
  (admissible_iff _).2 ⟨hcfg, List.length_take_le _ _⟩

/-- With a program loaded, index 0 is in range and the fetch there gives the first word (R236). -/
theorem load_cons_fetches_first {s : State} (hcfg : s.cfg.wf = true) (hpc : s.pc = 0) (w : Word)
    (ws : List Word) :
    (s.load (w :: ws)).pcOutOfRange = false ∧ (s.load (w :: ws)).fetch = some w := by
  obtain ⟨hcap, hhalt, -⟩ := (config_wf_iff s.cfg).1 hcfg
  have hpc0 : (s.load (w :: ws)).pc.toNat = 0 := by simp [hpc]
  constructor
  · rw [pcOutOfRange_eq_false_iff, hpc0]
    exact ⟨load_cons_progLen_pos hcfg w ws, Nat.lt_of_lt_of_le hcap hhalt⟩
  · rw [State.fetch, hpc0, State.load_read, List.getElem?_take_of_lt hcap, List.getElem?_cons_zero]

/-- Settles O9: the premises are the precondition and the halt test. -/
theorem outOfRangePcHaltsNormally : Obligations.OutOfRangePcHaltsNormally :=
  fun s hcfg hlen hrun hpc =>
    step_of_pcOutOfRange ((admissible_iff s).2 ⟨hcfg, hlen⟩) hrun ((pcOutOfRange_iff s).2 hpc)

/-- Settles O12: the registers are read through the file, the other fields stand in the definition of reset. -/
theorem resetStateIsZero : Obligations.ResetStateIsZero :=
  ⟨State.reset_reg, rfl, rfl, rfl, rfl, rfl, rfl, rfl⟩

/-- Settles O13: with no program `pc` 0 is out of range (O9), with one it fetches the first word. -/
theorem firstStepAfterReset : Obligations.FirstStepAfterReset := by
  intro c hc
  constructor
  · have hstep := outOfRangePcHaltsNormally { State.reset with cfg := c } hc (Nat.zero_le _) rfl
      (.inl (Nat.zero_le _))
    exact ⟨_, hstep, rfl, rfl, rfl, rfl, State.reset_reg⟩
  · intro w ws i hi
    obtain ⟨hpc, hfetch⟩ := load_cons_fetches_first (s := { State.reset with cfg := c }) hc rfl w ws
    exact step_of_decode (load_admissible hc _) rfl hpc hfetch hi

end Sys2Proof.Machine
end

section
/-! The decoder on words the encoder writes and on words the classifier judges (30_encoding.md R78, R88), under
every well-formed assignment, and the step on a word of either kind (R207, R240). -/

namespace Sys2Proof.Machine

/-! ## Encoded words -/

/-- The lemmas of Laws/PerInstr.lean, for any instruction. -/
theorem encode_fieldsReturn (i : Instr) : Laws.FieldsReturn.Statement i := by
  cases i with
  | sll => exact Laws.FieldsReturn.sll _ _ _
  | srl => exact Laws.FieldsReturn.srl _ _ _
  | sra => exact Laws.FieldsReturn.sra _ _ _
  | sllv => exact Laws.FieldsReturn.sllv _ _ _
  | srlv => exact Laws.FieldsReturn.srlv _ _ _
  | srav => exact Laws.FieldsReturn.srav _ _ _
  | jr => exact Laws.FieldsReturn.jr _
  | jalr => exact Laws.FieldsReturn.jalr _ _
  | syscall => exact Laws.FieldsReturn.syscall
  | brk => exact Laws.FieldsReturn.brk _
  | mfhi => exact Laws.FieldsReturn.mfhi _
  | mthi => exact Laws.FieldsReturn.mthi _
  | mflo => exact Laws.FieldsReturn.mflo _
  | mtlo => exact Laws.FieldsReturn.mtlo _
  | mult => exact Laws.FieldsReturn.mult _ _
  | multu => exact Laws.FieldsReturn.multu _ _
  | div => exact Laws.FieldsReturn.div _ _
  | divu => exact Laws.FieldsReturn.divu _ _
  | mul => exact Laws.FieldsReturn.mul _ _ _
  | add => exact Laws.FieldsReturn.add _ _ _
  | addu => exact Laws.FieldsReturn.addu _ _ _
  | sub => exact Laws.FieldsReturn.sub _ _ _
  | subu => exact Laws.FieldsReturn.subu _ _ _
  | and => exact Laws.FieldsReturn.and _ _ _
  | or => exact Laws.FieldsReturn.or _ _ _
  | xor => exact Laws.FieldsReturn.xor _ _ _
  | nor => exact Laws.FieldsReturn.nor _ _ _
  | slt => exact Laws.FieldsReturn.slt _ _ _
  | sltu => exact Laws.FieldsReturn.sltu _ _ _
  | bltz => exact Laws.FieldsReturn.bltz _ _
  | bgez => exact Laws.FieldsReturn.bgez _ _
  | j => exact Laws.FieldsReturn.j _
  | jal => exact Laws.FieldsReturn.jal _
  | beq => exact Laws.FieldsReturn.beq _ _ _
  | bne => exact Laws.FieldsReturn.bne _ _ _
  | blez => exact Laws.FieldsReturn.blez _ _
  | bgtz => exact Laws.FieldsReturn.bgtz _ _
  | addi => exact Laws.FieldsReturn.addi _ _ _
  | addiu => exact Laws.FieldsReturn.addiu _ _ _
  | slti => exact Laws.FieldsReturn.slti _ _ _
  | sltiu => exact Laws.FieldsReturn.sltiu _ _ _
  | andi => exact Laws.FieldsReturn.andi _ _ _
  | ori => exact Laws.FieldsReturn.ori _ _ _
  | xori => exact Laws.FieldsReturn.xori _ _ _
  | lui => exact Laws.FieldsReturn.lui _ _
  | lb => exact Laws.FieldsReturn.lb _ _ _
  | lh => exact Laws.FieldsReturn.lh _ _ _
  | lw => exact Laws.FieldsReturn.lw _ _ _
  | sb => exact Laws.FieldsReturn.sb _ _ _
  | sh => exact Laws.FieldsReturn.sh _ _ _
  | sw => exact Laws.FieldsReturn.sw _ _ _

/-- Settles O3: the encoded word has the key of its own row, hence of no other, and its fields are the
instruction's operands. -/
theorem decodeOfEncodeIsTheInstruction : Obligations.DecodeOfEncodeIsTheInstruction := by
  intro e hwf hdisjoint i hi
  obtain ⟨hkey, hfields⟩ := encode_fieldsReturn i hi e
  have hdispatch : dispatch e (encode e i) = some i.mnemonic :=
    dispatch_eq_some hkey fun _ hkey' => keyHolds_unique hwf hdisjoint hkey' hkey
  rw [decode_of_dispatch hdispatch, hfields]

/-- Settles O1: nine words have the keys of the rows the spec names, and two have no row's. -/
theorem sampleWordsDecode : Obligations.SampleWordsDecode :=
  ⟨readsAs_of_keyHolds (m := .addi) ⟨rfl, rfl⟩, readsAs_of_keyHolds (m := .add) ⟨rfl, rfl⟩,
    readsAs_of_keyHolds (m := .j) ⟨rfl, rfl⟩, readsAs_of_keyHolds (m := .sll) ⟨rfl, rfl⟩,
    readsAs_of_keyHolds (m := .lw) ⟨rfl, rfl⟩, readsAs_of_keyHolds (m := .mul) ⟨rfl, rfl⟩,
    readsAs_of_keyHolds (m := .bgez) ⟨rfl, rfl⟩, readsAs_of_keyHolds (m := .syscall) ⟨rfl, rfl⟩,
    readsAs_of_keyHolds (m := .beq) ⟨rfl, rfl⟩, by decide, by decide⟩

/-! ## Dispatch and the classifier -/

/-- A dispatched REGISTER row is shadowed by no PSEUDO one (R82). -/
theorem funct_not_mem_pseudoFuncts_of_dispatch {e : Enc} {w : Word} {m : Mnemonic}
    (h : dispatch e w = some m) (hm : m.family = .register) : e.funct m ∉ e.pseudoFuncts := by
  intro hshadowed
  obtain ⟨p, hp, hfunct⟩ := List.mem_map.1 hshadowed
  obtain ⟨h0, hw⟩ := (keyHolds_funct_iff (.inl hm)).1 (keyHolds_of_dispatch h)
  have hkey : e.keyHolds w p :=
    (keyHolds_funct_iff (.inr (family_of_mem hp))).2 ⟨h0, hw.trans hfunct.symm⟩
  obtain ⟨m', h', hm'⟩ := dispatch_of_pseudo_key (family_of_mem hp) hkey
  obtain rfl : m = m' := Option.some.inj (h.symm.trans h')
  exact absurd (hm.symm.trans hm') (by decide)

/-- Settles O4: the classifier places a dispatched word in its row's family, since no PSEUDO row shadows the
row dispatch names. -/
theorem dispatchAgreesWithClassifier : Obligations.DispatchAgreesWithClassifier := by
  intro e hwf w
  refine ⟨dispatch_isSome_eq_valid hwf w, fun m hm => ?_⟩
  rw [classify_of_keyHolds hwf (keyHolds_of_dispatch hm) (funct_not_mem_pseudoFuncts_of_dispatch hm)]

/-! ## The step on the word at `pc` -/

/-- The fourth way through `step`, beside `step_of_decode`, `step_of_decode_error` and `step_of_pcOutOfRange`
(R240). -/
theorem step_of_halted {s : State} (hadm : s.admissible = true) (hrun : s.run = .halted) :
    step s = .fault .halted := by
  simp [step, hadm, hrun]

/-- Settles O8: the premises are the precondition, the halt test and the fetch. -/
theorem stepRunsTheDecodedInstruction : Obligations.StepRunsTheDecodedInstruction :=
  fun s _ _ hcfg hlen hrun hprog hhalt hw hi =>
    step_of_decode ((admissible_iff s).2 ⟨hcfg, hlen⟩) hrun
      ((pcOutOfRange_eq_false_iff s).2 ⟨hprog, hhalt⟩) hw hi

/-- Settles O10: the decoder rejects exactly the words the classifier finds not valid. -/
theorem malformedWordFailsTheRun : Obligations.MalformedWordFailsTheRun := by
  intro s w hcfg hlen hrun hprog hhalt hw hinvalid
  obtain ⟨-, -, henc⟩ := (config_wf_iff s.cfg).1 hcfg
  obtain ⟨r, hr⟩ := (exists_decode_error_iff henc w).2 hinvalid
  rw [step_of_decode_error ((admissible_iff s).2 ⟨hcfg, hlen⟩) hrun
    ((pcOutOfRange_eq_false_iff s).2 ⟨hprog, hhalt⟩) hw hr]
  exact failWith_frame _ s.tick

/-- Settles O11: a step that answers a next state starts RUNNING. -/
theorem haltedMachineHasNoStep : Obligations.HaltedMachineHasNoStep := by
  refine fun s hhalted => ⟨fun t h => ?_, fun hcfg hlen =>
    step_of_halted ((admissible_iff s).2 ⟨hcfg, hlen⟩) hhalted⟩
  rw [run_of_step h] at hhalted
  cases hhalted

end Sys2Proof.Machine
end

section
/-! The load phase and the invariant of the machine (10_state.md R22, 60_exceptions.md R206 to R210,
70_reset_and_hazards.md R238): a load into a state that has not failed meets it, every step keeps it, and a
RUNNING state that meets it has a step. -/

namespace Sys2Proof.Machine

/-! ## The load phase -/

/-- Settles O14: the words that fit are the first IMEM_CAPACITY ones. -/
theorem loadFillsTheBuffer : Obligations.LoadFillsTheBuffer := by
  intro s ws
  refine ⟨List.length_take, fun k => ?_, Memory.wf_ofWords 0 _, rfl⟩
  rw [State.load_read, List.getElem?_take]

/-- A load fills exactly the cells below PROG_LEN, so only the registers and the failure record are left to
look at. -/
theorem State.load_inv {s : State} (hcfg : s.cfg.wf = true) (hzero : s.reg 0 = 0) (hfail : s.fail = none)
    (ws : List Word) : (s.load ws).Inv where
  config := hcfg
  length := List.length_take_le _ _
  canonical := Memory.wf_ofWords 0 _
  cells a w h := by
    rw [State.load_read, List.getElem?_take] at h
    by_contra hge
    cases (if_neg hge).symm.trans h
  loaded a h := by
    rw [State.load_read, List.getElem?_eq_getElem h, Option.isSome_some]
  zero := hzero
  running _ := hfail
  failure f h := by cases hfail.symm.trans h

/-- Settles O17: the reset registers are zero, and reset records no failure. -/
theorem loadedResetMeetsTheInvariant : Obligations.LoadedResetMeetsTheInvariant :=
  fun c ws hc => State.load_inv (s := { State.reset with cfg := c }) hc (State.reset_reg 0) rfl ws

/-- Settles O16: the reset state is itself a load of no words, under the default configuration. -/
theorem resetMeetsTheInvariant : Obligations.ResetMeetsTheInvariant :=
  loadedResetMeetsTheInvariant Config.default [] Config.default_wf

/-! ## The step from a state that meets the invariant -/

theorem State.Inv.admissible {s : State} (h : s.Inv) : s.admissible = true :=
  (admissible_iff s).2 ⟨h.config, h.length⟩

/-- In range the fetch finds a word, since every cell below PROG_LEN is loaded (R56). -/
theorem State.Inv.fetch_isSome {s : State} (h : s.Inv) (hpc : s.pcOutOfRange = false) :
    ∃ w, s.fetch = some w :=
  Option.isSome_iff_exists.1 (h.loaded _ ((pcOutOfRange_eq_false_iff s).1 hpc).1)

/-- Settles O18: the precondition holds and the fetch finds a word, so one of the ways through `step` that
answer a next state is taken. -/
theorem runningMachineAlwaysSteps : Obligations.RunningMachineAlwaysSteps := by
  intro s hinv hrun
  by_cases hpc : s.pcOutOfRange = true
  · exact ⟨_, step_of_pcOutOfRange hinv.admissible hrun hpc⟩
  have hin : s.pcOutOfRange = false := Bool.eq_false_iff.2 hpc
  obtain ⟨w, hw⟩ := hinv.fetch_isSome hin
  cases hdecode : decode s.cfg.enc w with
  | error r => exact ⟨_, step_of_decode_error hinv.admissible hrun hin hw hdecode⟩
  | ok i =>
    obtain ⟨t, ht, -, -⟩ := exec_effect i s.tick
    exact ⟨t, (step_of_decode hinv.admissible hrun hin hw hdecode).trans ht⟩

/-! ## The failure a step records

A failure raised before any write leaves the word at `pc` and the registers that explain it in place. -/

theorem onlyFailed_raise (f : Failure) (s : State) : OnlyFailed s (s.raise f) f := by
  obtain ⟨t, ht, hfailed⟩ := failWith_frame f s
  obtain rfl : s.raise f = t := Host.Outcome.next.inj ht
  exact hfailed

theorem failureExplained_malformed {s t : State} {w : Word} {r : Malformed}
    (h : OnlyFailed s t (.malformedInstruction w s.pc)) (hw : s.fetch = some w)
    (hr : decode s.cfg.enc w = .error r) : FailureExplained t (.malformedInstruction w s.pc) :=
  ⟨h.pc, by rwa [h.buffer.cells], r, by rwa [h.buffer.cfg]⟩

theorem failureExplained_division {s t : State} {w : Word} {c : ArithCause} {rs rt : RegIdx} {i : Instr}
    (h : OnlyFailed s t (.arithmeticFault c s.pc)) (hw : s.fetch = some w)
    (hdecode : decode s.cfg.enc w = .ok i) (hi : i = .div rs rt ∨ i = .divu rs rt)
    (hc : DivisionFails s rs rt c) : FailureExplained t (.arithmeticFault c s.pc) := by
  refine ⟨h.pc, w, rs, rt, by rwa [h.buffer.cells], ?_, ?_⟩
  · rw [h.buffer.cfg, hdecode]
    exact hi.imp (congrArg _) (congrArg _)
  · cases c with
    | divisionByZero => exact (h.regs rt).trans hc
    | divisionOverflow => exact ⟨(h.regs rs).trans hc.1, (h.regs rt).trans hc.2⟩

/-- An instruction the decoder gives records no failure, or one that the state it leaves explains: the
decoder gives no jump that would fail. -/
theorem exec_failureExplained {s t : State} {w : Word} {i : Instr} (hin : s.pcOutOfRange = false)
    (hw : s.fetch = some w) (hdecode : decode s.cfg.enc w = .ok i) (h : exec i s = .next t) :
    t.fail = s.fail ∨ (t.run = .halted ∧ ∃ f, t.fail = some f ∧ FailureExplained t f) := by
  obtain ⟨t', ht', hbuffer, heffect⟩ := exec_effect i s
  obtain rfl : t' = t := Host.Outcome.next.inj (ht'.symm.trans h)
  cases heffect with
  | completed h => exact .inl h.fail
  | divisionFailed c rs rt hi hc h =>
    exact .inr ⟨h.run, _, h.fail, failureExplained_division h hw hdecode hi hc⟩
  | illegalJump addr hi ha _ =>
    have hlegal : addrLegal addr = true := by
      rcases hi with rfl | rfl
      · exact decode_wellFormed hdecode
      · exact decode_wellFormed hdecode
    exact absurd hlegal (ne_true_of_eq_false ha)
  | unknownService _ h1 h10 h11 _ _ _ pc run fail out =>
    refine .inr ⟨run, _, fail, pc.trans (by rw [hbuffer.cfg]), h1, h10, h11, ?_, by simp [out]⟩
    rw [hbuffer.progLen]
    exact ((pcOutOfRange_eq_false_iff s).1 hin).1

/-- A step leaves the failure record alone, or HALTED with a failure that the state explains. -/
theorem step_failureExplained {s t : State} (h : step s = .next t) :
    t.fail = s.fail ∨ (t.run = .halted ∧ ∃ f, t.fail = some f ∧ FailureExplained t f) := by
  obtain ⟨-, -, ⟨-, rfl⟩ | ⟨hin, w, hw, ⟨r, hr, rfl⟩ | ⟨i, hdecode, hexec⟩⟩⟩ := step_cases h
  · exact .inl rfl
  · have hfailed := onlyFailed_raise (.malformedInstruction w s.pc) s.tick
    exact .inr ⟨hfailed.run, _, hfailed.fail, failureExplained_malformed (s := s.tick) hfailed hw hr⟩
  · exact exec_failureExplained (s := s.tick) hin hw hdecode hexec

/-! ## The invariant is kept -/

/-- A step keeps register 0 zero (10_state.md R22). -/
theorem step_keeps_zero {s t : State} (h0 : s.reg 0 = 0) (h : step s = .next t) : t.reg 0 = 0 := by
  rcases step_changesAtMost h0 h with ⟨-, rfl⟩ | ⟨-, -, hchanges⟩
  · exact h0
  · exact hchanges.zero

/-- Settles O15: the clauses on the buffer speak of cells no step changes (O19), and a step that records no
explained failure leaves the record as it was, which is none. -/
theorem everyStepKeepsTheInvariant : Obligations.EveryStepKeepsTheInvariant := by
  intro s t hinv hstep
  obtain ⟨hrun, -, himem, hlen, hcfg⟩ := (oneStepChangesAtMost s hinv.zero).1 t hstep
  have hfail : t.fail = none ∨ (t.run = .halted ∧ ∃ f, t.fail = some f ∧ FailureExplained t f) :=
    (step_failureExplained hstep).imp_left (·.trans (hinv.running hrun))
  exact {
    config := hcfg ▸ hinv.config
    length := hcfg ▸ hlen ▸ hinv.length
    canonical := himem ▸ hinv.canonical
    cells := hcfg ▸ himem ▸ hinv.cells
    loaded := hlen ▸ himem ▸ hinv.loaded
    zero := step_keeps_zero hinv.zero hstep
    running := fun hrunning => by
      rcases hfail with hnone | ⟨hhalted, -⟩
      · exact hnone
      · cases hrunning.symm.trans hhalted
    failure := fun f hf => by
      rcases hfail with hnone | ⟨-, f', hf', hexplained⟩
      · cases hnone.symm.trans hf
      · cases hf.symm.trans hf'
        exact hexplained }

end Sys2Proof.Machine
end

section
/-! What the effect of an instruction (`exec_effect`) says of register 0, the run state and the output
(10_state.md R22, R33, 60_exceptions.md R206), and the law of the division that completes (42_muldiv.md R161). -/

namespace Sys2Proof.Machine

/-! ## Register 0 and the output -/

/-- Settles O20: a completed handler and an unknown service clear register 0, the other two effects are
failures raised before any write. -/
theorem registerZeroClearedAfterEveryHandler : Obligations.RegisterZeroClearedAfterEveryHandler := by
  intro i s
  obtain ⟨t, ht, -, heffect⟩ := exec_effect i s
  refine ⟨t, ht, ?_⟩
  cases heffect with
  | completed h =>
    obtain ⟨d, v, hregs⟩ := h.regs
    exact .inl (by rw [hregs, if_pos rfl])
  | divisionFailed _ _ _ _ _ h => exact .inr ⟨_, h⟩
  | illegalJump _ _ _ h => exact .inr ⟨_, h⟩
  | unknownService _ _ _ _ regs => exact .inl (by rw [regs, if_pos rfl])

/-- Settles O22: a failure raised before any write appends nothing, and the other effects append what
`Completed` and the unknown service do. -/
theorem onlySyscallAppendsEvents : Obligations.OnlySyscallAppendsEvents := by
  intro i s
  obtain ⟨t, ht, -, heffect⟩ := exec_effect i s
  refine ⟨t, ht, ?_⟩
  cases heffect with
  | completed h => exact h.out
  | divisionFailed _ _ _ _ _ h => exact .inl h.out
  | illegalJump _ _ _ h => exact .inl h.out
  | unknownService hi _ _ _ _ _ _ _ _ _ out => exact .inr ⟨hi, _, out⟩

/-! ## The instructions that end a run -/

theorem addrLegal_eq_false_iff (addr : BitVec 26) : addrLegal addr = false ↔ 31 < addr.toNat := by
  simp [addrLegal]

theorem exists_divisionFails_iff (s : State) (rs rt : RegIdx) :
    (∃ c, DivisionFails s rs rt c) ↔
      s.reg rt = 0 ∨ (s.reg rs = 0x80000000 ∧ s.reg rt = 0xFFFFFFFF) := by
  constructor
  · rintro ⟨c, hc⟩
    cases c with
    | divisionByZero => exact .inl hc
    | divisionOverflow => exact .inr hc
  · rintro (hzero | hoverflow)
    · exact ⟨.divisionByZero, hzero⟩
    · exact ⟨.divisionOverflow, hoverflow⟩

theorem exec_of_divisionFails {i : Instr} {s : State} {rs rt : RegIdx} {c : ArithCause}
    (hi : i = .div rs rt ∨ i = .divu rs rt) (hc : DivisionFails s rs rt c) :
    exec i s = failWith (.arithmeticFault c s.pc) s := by
  rcases hi with rfl | rfl
  · exact divide_of_fails hc
  · exact divide_of_fails hc

/-- A jump term with `addr` above 31 fails as the word it spells (log entry 10). -/
theorem exec_of_illegal_addr {i : Instr} {s : State} {addr : BitVec 26}
    (hi : i = .j addr ∨ i = .jal addr) (ha : addrLegal addr = false) :
    exec i s = failWith (.malformedInstruction (encode s.cfg.enc i) s.pc) s := by
  rcases hi with rfl | rfl
  · exact if_neg (ne_true_of_eq_false ha)
  · exact if_neg (ne_true_of_eq_false ha)

theorem run_of_failWith {i : Instr} {s t : State} {f : Failure} (h : exec i s = failWith f s)
    (ht : exec i s = .next t) : t.run = .halted := by
  obtain rfl : s.raise f = t := Host.Outcome.next.inj (h.symm.trans ht)
  rfl

theorem not_mem_services_iff (n : Word) : n ∉ ([1, 10, 11] : List Word) ↔ n ≠ 1 ∧ n ≠ 10 ∧ n ≠ 11 := by
  simp only [List.mem_cons, List.not_mem_nil, or_false, not_or, ne_eq]

theorem run_of_unknown_service {s t : State}
    (h : s.reg s.cfg.syscallNumReg ∉ ([1, 10, 11] : List Word)) (ht : exec .syscall s = .next t) :
    t.run = .halted := by
  obtain ⟨h1, h10, h11⟩ := (not_mem_services_iff _).1 h
  obtain ⟨t', ht', hserved⟩ := exec_syscall_unknown h1 h10 h11
  obtain rfl : t' = t := Host.Outcome.next.inj (ht'.symm.trans ht)
  obtain ⟨-, -, hrun, -⟩ := hserved.outcome
  exact hrun

/-- Settles O21: a completed handler leaves a RUNNING machine RUNNING, and the conditions of the other three
effects are the ones listed, each of which raises its failure. -/
theorem onlyTheseInstructionsFail : Obligations.OnlyTheseInstructionsFail := by
  intro i s hrun
  obtain ⟨t, ht, -, heffect⟩ := exec_effect i s
  refine ⟨t, ht, fun hhalted => ?_, ?_⟩
  · cases heffect with
    | completed h => cases hhalted.symm.trans (h.run.trans hrun)
    | divisionFailed c rs rt hi hc _ =>
      exact .inl ⟨rs, rt, hi, (exists_divisionFails_iff s rs rt).1 ⟨c, hc⟩⟩
    | illegalJump addr hi ha _ => exact .inr (.inr ⟨addr, hi, (addrLegal_eq_false_iff addr).1 ha⟩)
    | unknownService hi h1 h10 h11 => exact .inr (.inl ⟨hi, (not_mem_services_iff _).2 ⟨h1, h10, h11⟩⟩)
  · rintro (⟨rs, rt, hi, hfails⟩ | ⟨rfl, hservice⟩ | ⟨addr, hi, ha⟩)
    · obtain ⟨c, hc⟩ := (exists_divisionFails_iff s rs rt).2 hfails
      exact run_of_failWith (exec_of_divisionFails hi hc) ht
    · exact run_of_unknown_service hservice ht
    · exact run_of_failWith (exec_of_illegal_addr hi ((addrLegal_eq_false_iff addr).2 ha)) ht

/-- Settles O52: under `ENC_DEFAULT` the encoder writes the word the rule writes. -/
theorem illegalJumpTermFails : Obligations.IllegalJumpTermFails := by
  intro s addr ha henc i w hiw
  have hi : i = .j addr ∨ i = .jal addr := hiw.imp And.left And.left
  have hw : encode s.cfg.enc i = w := by
    rw [henc]
    rcases hiw with ⟨rfl, rfl⟩ | ⟨rfl, rfl⟩
    · exact (wordJ_eq 0x02 addr).symm
    · exact (wordJ_eq 0x03 addr).symm
  rw [exec_of_illegal_addr hi ((addrLegal_eq_false_iff addr).2 ha), hw]
  exact failWith_frame _ s

/-! ## The division law -/

theorem toInt_remainder (a b : Word) : (remainder a b).toInt = a.toInt.tmod b.toInt := by
  rw [remainder_eq, BitVec.toInt_srem]

/-- The one quotient that does not fit in a word is that of the overflow. -/
theorem toInt_quotient {a b : Word} (h : ¬(a = 0x80000000 ∧ b = 0xFFFFFFFF)) :
    (quotient a b).toInt = a.toInt.tdiv b.toInt := by
  rw [quotient_eq]
  exact BitVec.toInt_sdiv_of_ne_or_ne _ _ (not_and_or.1 h)

/-- A truncating remainder is smaller than the divisor in size. -/
theorem natAbs_tmod_lt (a : Int) {b : Int} (hb : b ≠ 0) : (a.tmod b).natAbs < b.natAbs := by
  rw [Int.natAbs_tmod]
  exact Nat.mod_lt _ (Int.natAbs_pos.2 hb)

/-- A truncating remainder is zero or has the sign of the dividend. -/
theorem tmod_sign (a b : Int) : a.tmod b = 0 ∨ (0 < a.tmod b ∧ 0 < a) ∨ (a.tmod b < 0 ∧ a < 0) := by
  rcases lt_trichotomy a 0 with hneg | rfl | hpos
  · have hnonneg := Int.tmod_nonneg b (neg_nonneg.2 hneg.le)
    rw [Int.neg_tmod] at hnonneg
    omega
  · simp
  · have hnonneg := Int.tmod_nonneg b hpos.le
    omega

/-- Settles O42: `LO` and `HI` are the truncating quotient and remainder over the integers, neither of which
is cut to fit a word. -/
theorem divisionLaw : Obligations.DivisionLaw := by
  intro s rs rt i hi hnonzero hnoOverflow
  obtain ⟨-, -, hdivides⟩ := divideOrFail s rs rt 0 0
  obtain ⟨hcompletes, -, -⟩ := hdivides i hi
  obtain ⟨t, ht, -, hacc⟩ := hcompletes hnonzero hnoOverflow
  have hhi : t.hi.toInt = (s.reg rs).toInt.tmod (s.reg rt).toInt := by
    rw [hacc.hi, ← remainder_eq_ofInt, toInt_remainder]
  have hlo : t.lo.toInt = (s.reg rs).toInt.tdiv (s.reg rt).toInt := by
    rw [hacc.lo]
    exact toInt_quotient hnoOverflow
  have hdivisor : (s.reg rt).toInt ≠ 0 := mt (toInt_eq_zero_iff _).1 hnonzero
  refine ⟨t, ht, ?_⟩
  rw [hhi, hlo]
  exact ⟨(Int.tdiv_mul_add_tmod _ _).symm, natAbs_tmod_lt _ hdivisor, tmod_sign _ _⟩

end Sys2Proof.Machine
end

section
/-! What an instruction reads and writes (10_state.md R26, R37, 20_memory.md R57), said once: `exec` makes a change
that is computed without the host's cells, without the buffer and, but for `mfhi` and `mflo`, without the
accumulators. That the cells left out are unobservable then needs no further look at the instructions. -/

namespace Sys2Proof.Machine

/-! ## Changes -/

/-- What an instruction does to a state: the registers and `pc` it leaves, the accumulators it writes, the
event it appends and the failure it raises. -/
structure Change where
  regs : Vector Word 32
  pc : Word
  hi : Option Word := none
  lo : Option Word := none
  event : Option OutEvent := none
  failure : Option Failure := none

/-- The state after a change: the fields it does not name are kept. -/
def Change.apply (c : Change) (s : State) : State :=
  { s with
    regs := c.regs
    pc := c.pc
    hi := c.hi.getD s.hi
    lo := c.lo.getD s.lo
    out := c.event.elim s.out fun e => s.out ++ [e]
    run := c.failure.elim s.run fun _ => .halted
    fail := c.failure.elim s.fail some }

/-- The end of a completed handler that left the registers `regs`: register 0 is cleared (R244). -/
def Change.retireTo (regs : Vector Word 32) (t : Word) : Change := { regs := regs.set 0 0, pc := t }

/-- A failure raised before any write (R210). -/
def Change.raise (f : Failure) (s : State) : Change := { regs := s.regs, pc := s.pc, failure := some f }

/-- The change of a jump through the register `addr` names (R182). -/
def Change.jumpThrough (w : Word) (addr : BitVec 26) (s : State) : Change :=
  if addrLegal addr then .retireTo s.regs (s.reg (addrReg addr)) else .raise (.malformedInstruction w s.pc) s

/-- The change of a handler that writes `HI` and `LO`. -/
def Change.writeAcc (hi lo : Word) (s : State) : Change :=
  { Change.retireTo s.regs (s.pc + 1) with hi := some hi, lo := some lo }

/-- The change of a division (R153). -/
def Change.divide (rs rt : RegIdx) (s : State) : Change :=
  if s32 (s.reg rt) = 0 then .raise (.arithmeticFault .divisionByZero s.pc) s
  else if s32 (s.reg rs) = -2 ^ 31 ∧ s32 (s.reg rt) = -1 then
    .raise (.arithmeticFault .divisionOverflow s.pc) s
  else .writeAcc (remainder (s.reg rs) (s.reg rt)) (quotient (s.reg rs) (s.reg rt)) s

/-- The change of `syscall` (R198). -/
def Change.syscall (s : State) : Change :=
  let n := s.reg s.cfg.syscallNumReg
  let a := s.reg s.cfg.syscallArgReg
  if n = 1 then { Change.retireTo s.regs (s.pc + 1) with event := some (.printInt a) }
  else if n = 10 then .retireTo s.regs s.cfg.haltPc
  else if n = 11 then
    { Change.retireTo s.regs (s.pc + 1) with event := some (.printChar (a.extractLsb' 0 8)) }
  else { Change.retireTo s.regs s.cfg.haltPc with
    event := some (.unknownSyscallMessage n), failure := some (.unknownSyscall n s.pc) }

theorem jumpThrough_eq_change (w : Word) (addr : BitVec 26) (s : State) :
    jumpThrough w addr s = .next ((Change.jumpThrough w addr s).apply s) := by
  unfold jumpThrough Change.jumpThrough
  split_ifs <;> rfl

theorem divide_eq_change (rs rt : RegIdx) (s : State) :
    divide rs rt s = .next ((Change.divide rs rt s).apply s) := by
  unfold divide Change.divide
  split_ifs <;> rfl

theorem execSyscall_eq_change (s : State) : execSyscall s = .next ((Change.syscall s).apply s) := by
  unfold execSyscall Change.syscall
  simp only
  split_ifs <;> rfl

theorem Change.jumpThrough_acc (w : Word) (addr : BitVec 26) (s : State) :
    (Change.jumpThrough w addr s).hi = none ∧ (Change.jumpThrough w addr s).lo = none := by
  unfold Change.jumpThrough
  split_ifs <;> exact ⟨rfl, rfl⟩

theorem Change.syscall_acc (s : State) :
    (Change.syscall s).hi = none ∧ (Change.syscall s).lo = none := by
  unfold Change.syscall
  simp only
  split_ifs <;> exact ⟨rfl, rfl⟩

/-! ## Footprints -/

/-- The state with the cells no instruction reads replaced: the host's (R37) and the buffer (R57). -/
def State.withUnread (s : State) (run : RunState) (fail : Option Failure) (out : List OutEvent)
    (steps : Nat) (imem : Memory) : State :=
  { s with run := run, fail := fail, out := out, steps := steps, imem := imem }

/-- The state with the accumulators replaced. -/
def State.withAcc (s : State) (h l : Word) : State := { s with hi := h, lo := l }

/-- In every state the instruction makes the change `c`; which cells `c` may depend on, and which instructions
may write an accumulator. -/
structure Footprint (i : Instr) (c : State → Change) : Prop where
  makes : ∀ s, exec i s = .next ((c s).apply s)
  unread : ∀ s run fail out steps imem, c (s.withUnread run fail out steps imem) = c s
  acc : i.mnemonic ∉ [.mfhi, .mflo] → ∀ s h l, c (s.withAcc h l) = c s
  hi : ∀ s, (c s).hi ≠ none → i.mnemonic ∈ [.mult, .multu, .div, .divu, .mul, .mthi]
  lo : ∀ s, (c s).lo ≠ none → i.mnemonic ∈ [.mult, .multu, .div, .divu, .mul, .mtlo]

section
variable {i : Instr} {c : State → Change}

theorem footprint_of_acc_kept (makes : ∀ s, exec i s = .next ((c s).apply s))
    (unread : ∀ s run fail out steps imem, c (s.withUnread run fail out steps imem) = c s)
    (acc : i.mnemonic ∉ [.mfhi, .mflo] → ∀ s h l, c (s.withAcc h l) = c s)
    (kept : ∀ s, (c s).hi = none ∧ (c s).lo = none) : ∃ c, Footprint i c :=
  ⟨c, makes, unread, acc, fun s h => absurd (kept s).1 h, fun s h => absurd (kept s).2 h⟩

theorem footprint_of_acc_written (makes : ∀ s, exec i s = .next ((c s).apply s))
    (unread : ∀ s run fail out steps imem, c (s.withUnread run fail out steps imem) = c s)
    (acc : ∀ s h l, c (s.withAcc h l) = c s)
    (hi : i.mnemonic ∈ [.mult, .multu, .div, .divu, .mul]) : ∃ c, Footprint i c :=
  ⟨c, makes, unread, fun _ => acc, fun _ _ => List.mem_append_left [Mnemonic.mthi] hi,
    fun _ _ => List.mem_append_left [Mnemonic.mtlo] hi⟩

theorem footprint_writeReg {d : RegIdx} {v : State → Word} (hexec : ∀ s, exec i s = writeReg d (v s) s)
    (unread : ∀ s run fail out steps imem, v (s.withUnread run fail out steps imem) = v s)
    (acc : i.mnemonic ∉ [.mfhi, .mflo] → ∀ s h l, v (s.withAcc h l) = v s) : ∃ c, Footprint i c :=
  footprint_of_acc_kept (c := fun s => .retireTo (s.setReg d (v s)).regs (s.pc + 1)) hexec
    (fun s run fail out steps imem => by rw [unread]; rfl) (fun hi s h l => by rw [acc hi]; rfl)
    fun _ => ⟨rfl, rfl⟩

theorem footprint_jumpTo {p : State → Word} (hexec : ∀ s, exec i s = jumpTo (p s) s)
    (unread : ∀ s run fail out steps imem, p (s.withUnread run fail out steps imem) = p s)
    (acc : ∀ s h l, p (s.withAcc h l) = p s) : ∃ c, Footprint i c :=
  footprint_of_acc_kept (c := fun s => .retireTo s.regs (p s)) hexec
    (fun s run fail out steps imem => by rw [unread]; rfl) (fun _ s h l => by rw [acc]; rfl)
    fun _ => ⟨rfl, rfl⟩

end

/-- Every instruction has a footprint. That a cell is not read is `rfl`: the change does not mention it. -/
theorem exec_footprint (i : Instr) : ∃ c, Footprint i c := by
  cases i with
  | sll | srl | sra | sllv | srlv | srav | add | addu | sub | subu | and | or | xor | nor | slt | sltu
  | addi | addiu | slti | sltiu | andi | ori | xori | lui | lb | lh | lw | sb | sh | sw =>
    exact footprint_writeReg (fun _ => rfl) (fun _ _ _ _ _ _ => rfl) fun _ _ _ _ => rfl
  | mfhi | mflo =>
    exact footprint_writeReg (fun _ => rfl) (fun _ _ _ _ _ _ => rfl) fun h =>
      absurd (by simp [Instr.mnemonic]) h
  | jr | brk | beq | bne | bgez | bgtz | blez | bltz =>
    exact footprint_jumpTo (fun _ => rfl) (fun _ _ _ _ _ _ => rfl) fun _ _ _ => rfl
  | jalr rd rs =>
    exact footprint_of_acc_kept
      (c := fun s => .retireTo (s.setReg rd s.pc).regs ((s.setReg rd s.pc).reg rs)) (fun _ => rfl)
      (fun _ _ _ _ _ _ => rfl) (fun _ _ _ _ => rfl) fun _ => ⟨rfl, rfl⟩
  | j addr =>
    exact footprint_of_acc_kept (fun s => jumpThrough_eq_change (encode s.cfg.enc (.j addr)) addr s)
      (fun _ _ _ _ _ _ => rfl) (fun _ _ _ _ => rfl) fun s => Change.jumpThrough_acc _ addr s
  | jal addr =>
    exact footprint_of_acc_kept (fun s => jumpThrough_eq_change (encode s.cfg.enc (.jal addr)) addr s)
      (fun _ _ _ _ _ _ => rfl) (fun _ _ _ _ => rfl) fun s => Change.jumpThrough_acc _ addr s
  | syscall =>
    exact footprint_of_acc_kept execSyscall_eq_change (fun _ _ _ _ _ _ => rfl) (fun _ _ _ _ => rfl)
      Change.syscall_acc
  | mthi rd =>
    exact ⟨fun s => { Change.retireTo s.regs (s.pc + 1) with hi := some (s.reg rd) }, fun _ => rfl,
      fun _ _ _ _ _ _ => rfl, fun _ _ _ _ => rfl, fun _ _ => by simp [Instr.mnemonic],
      fun _ h => absurd rfl h⟩
  | mtlo rd =>
    exact ⟨fun s => { Change.retireTo s.regs (s.pc + 1) with lo := some (s.reg rd) }, fun _ => rfl,
      fun _ _ _ _ _ _ => rfl, fun _ _ _ _ => rfl, fun _ h => absurd rfl h,
      fun _ _ => by simp [Instr.mnemonic]⟩
  | mult rs rt | multu rs rt =>
    exact footprint_of_acc_written
      (c := fun s => .writeAcc (mulWrap (s.reg rs) (s.reg rt)) (mulWrap (s.reg rs) (s.reg rt)) s)
      (fun _ => rfl) (fun _ _ _ _ _ _ => rfl) (fun _ _ _ => rfl) (by simp [Instr.mnemonic])
  | mul rd rs rt =>
    exact footprint_of_acc_written
      (c := fun s => .writeAcc (mulWrap (s.reg rs) (s.reg rt)) (mulWrap (s.reg rs) (s.reg rt))
        (s.setReg rd (mulWrap (s.reg rs) (s.reg rt))))
      (fun _ => rfl) (fun _ _ _ _ _ _ => rfl) (fun _ _ _ => rfl) (by simp [Instr.mnemonic])
  | div rs rt | divu rs rt =>
    exact footprint_of_acc_written (divide_eq_change rs rt) (fun _ _ _ _ _ _ => rfl) (fun _ _ _ => rfl)
      (by simp [Instr.mnemonic])

/-! ## What the cells left out of a change cannot reach -/

/-- Settles O26: the change is the same, and of the fields compared it keeps only accumulators, which are
the same too. -/
theorem hostCellsAreUnreadable : Obligations.HostCellsAreUnreadable := by
  intro i s run fail out steps
  obtain ⟨c, hc⟩ := exec_footprint i
  refine ⟨_, _, hc.makes s, hc.makes (s.withUnread run fail out steps s.imem), ?_⟩
  rw [hc.unread]
  exact ⟨fun _ => rfl, rfl, rfl, rfl⟩

/-- Settles O23: a change that names no accumulator keeps it, and without the accumulators `c` is the same
change, which then leaves the same registers, `pc`, output and failure. -/
theorem onlyTheseTouchHiAndLo : Obligations.OnlyTheseTouchHiAndLo := by
  intro i s
  obtain ⟨c, hc⟩ := exec_footprint i
  refine ⟨_, hc.makes s, fun hwritten => hc.hi s fun hnone => hwritten ?_,
    fun hwritten => hc.lo s fun hnone => hwritten ?_, fun hi h l => ⟨_, hc.makes (s.withAcc h l), ?_⟩⟩
  · exact congrArg (Option.getD · s.hi) hnone
  · exact congrArg (Option.getD · s.lo) hnone
  · rw [hc.acc hi]
    exact ⟨fun _ => rfl, rfl, rfl, rfl⟩

/-- The state with the buffer replaced. -/
def State.withImem (s : State) (m : Memory) : State := { s with imem := m }

/-- An instruction does with another buffer what it does with its own. -/
theorem exec_withImem {i : Instr} {s t : State} (h : exec i s = .next t) (m : Memory) :
    exec i (s.withImem m) = .next (t.withImem m) := by
  obtain ⟨c, hc⟩ := exec_footprint i
  obtain rfl : (c s).apply s = t := Host.Outcome.next.inj ((hc.makes s).symm.trans h)
  have hmakes := hc.makes (s.withUnread s.run s.fail s.out s.steps m)
  rw [hc.unread] at hmakes
  exact hmakes

theorem step_of_not_admissible {s : State} (hadm : ¬ s.admissible = true) :
    step s = .refused .configuration := by
  simp [step, hadm]

theorem step_of_unloaded {s : State} (hadm : s.admissible = true) (hrun : s.run = .running)
    (hpc : s.pcOutOfRange = false) (hw : s.fetch = none) : step s = .fault .unloadedCell := by
  simp [step, hadm, hrun, hpc, hw]

/-- Settles O25: `step` takes the same way with both buffers, since it fetches below PROG_LEN only, and no
instruction reads the buffer. -/
theorem unloadedCellsAreUnobservable : Obligations.UnloadedCellsAreUnobservable := by
  intro s m hm
  change step (s.withImem m) = _
  by_cases hadm : s.admissible = true
  swap
  · rw [step_of_not_admissible hadm, step_of_not_admissible (s := s.withImem m) hadm]
  cases hrun : s.run with
  | halted => rw [step_of_halted hadm hrun, step_of_halted (s := s.withImem m) hadm hrun]
  | running =>
    by_cases hpc : s.pcOutOfRange = true
    · rw [step_of_pcOutOfRange hadm hrun hpc, step_of_pcOutOfRange (s := s.withImem m) hadm hrun hpc]
      rfl
    have hin : s.pcOutOfRange = false := Bool.eq_false_iff.2 hpc
    have hfetch : (s.withImem m).fetch = s.fetch :=
      hm _ ((pcOutOfRange_eq_false_iff s).1 hin).1
    cases hw : s.fetch with
    | none =>
      rw [step_of_unloaded hadm hrun hin hw,
        step_of_unloaded (s := s.withImem m) hadm hrun hin (hfetch.trans hw)]
    | some w =>
      cases hdecode : decode s.cfg.enc w with
      | error r =>
        rw [step_of_decode_error hadm hrun hin hw hdecode,
          step_of_decode_error (s := s.withImem m) hadm hrun hin (hfetch.trans hw) hdecode]
        rfl
      | ok i =>
        obtain ⟨t, ht, -⟩ := exec_effect i s.tick
        rw [step_of_decode hadm hrun hin hw hdecode, ht,
          step_of_decode (s := s.withImem m) hadm hrun hin (hfetch.trans hw) hdecode]
        exact exec_withImem ht m

/-! ## Where `pc` goes -/

/-- A division completes and goes on to `pc + 1`, or fails and stays (R29). -/
theorem divide_advances_or_fails (rs rt : RegIdx) (s : State) :
    ∃ t, divide rs rt s = .next t ∧
      (t.pc = s.pc + 1 ∨ ∃ c, OnlyFailed s t (.arithmeticFault c s.pc)) := by
  rcases divide_cases rs rt s with ⟨c, -, hdivide⟩ | ⟨-, hdivide⟩
  · obtain ⟨t, ht, hfailed⟩ := failWith_frame (.arithmeticFault c s.pc) s
    exact ⟨t, hdivide.trans ht, .inr ⟨c, hfailed⟩⟩
  · exact ⟨_, hdivide, .inl rfl⟩

/-- Settles O24: the instructions that are no transfers end in `retire`, except for a division that fails. -/
theorem pcAdvancesByOneElsewhere : Obligations.PcAdvancesByOneElsewhere := by
  intro i s hi
  cases i with
  | beq | bne | bgez | bgtz | blez | bltz | j | jal | jr | jalr | brk | syscall =>
    exact absurd (by simp [Instr.mnemonic]) hi
  | div rs rt | divu rs rt =>
    obtain ⟨t, ht, hpc⟩ := divide_advances_or_fails rs rt s
    exact ⟨t, ht, hpc.imp_right fun hfailed => ⟨by simp [Instr.mnemonic], hfailed⟩⟩
  | sll | srl | sra | sllv | srlv | srav | add | addu | sub | subu | and | or | xor | nor | slt | sltu
  | addi | addiu | slti | sltiu | andi | ori | xori | lui | lb | lh | lw | sb | sh | sw
  | mfhi | mflo | mthi | mtlo | mult | multu | mul => exact ⟨_, rfl, .inl rfl⟩

end Sys2Proof.Machine
end

section
/-! The host's run function under a step limit (70_reset_and_hazards.md R246). -/

namespace Sys2Proof.Machine

theorem ended_of_halted {s : State} (h : s.run = .halted) : s.ended = some (.halted s) := by
  simp [State.ended, h]

/-- A RUNNING machine is at its step limit or may take another step. -/
theorem ended_of_running {s : State} {n : Nat} (hrun : s.run = .running) (hlimit : s.cfg.stepLimit = some n) :
    s.ended = if n ≤ s.steps then some (.outOfSteps s) else none := by
  simp [State.ended, hrun, State.limitReached, hlimit]

theorem runToHalt_of_ended {s : State} {r : RunResult} (h : s.ended = some r) (fuel : Nat) :
    runToHalt fuel s = r := by
  cases fuel <;> simp [runToHalt, h]

theorem runToHalt_of_step {s t : State} (hended : s.ended = none) (hstep : step s = .next t) (fuel : Nat) :
    runToHalt (fuel + 1) s = runToHalt fuel t := by
  simp [runToHalt, hended, hstep]

/-- A step halts the machine at the step count it had, or counts one step. -/
theorem step_steps {s t : State} (hinv : s.Inv) (h : step s = .next t) :
    (t.run = .halted ∧ t.steps = s.steps) ∨ t.steps = s.steps + 1 := by
  rcases step_changesAtMost hinv.zero h with ⟨-, rfl⟩ | ⟨-, hbuffer, -⟩
  · exact .inl ⟨rfl, rfl⟩
  · exact .inr hbuffer.steps

theorem step_keeps_cfg {s t : State} (hinv : s.Inv) (h : step s = .next t) : t.cfg = s.cfg := by
  rcases step_changesAtMost hinv.zero h with ⟨-, rfl⟩ | ⟨-, hbuffer, -⟩
  · rfl
  · exact hbuffer.cfg

/-- How a run ends that honours the step limit `n`. -/
def EndsWithin (n : Nat) (r : RunResult) : Prop :=
  (∃ t, r = .halted t ∧ t.run = .halted ∧ t.steps ≤ n) ∨
    (∃ t, r = .outOfSteps t ∧ t.run = .running ∧ t.steps = n ∧ t.fail = none)

section
variable {s : State} {n : Nat}

theorem endsWithin_of_halted (hrun : s.run = .halted) (hsteps : s.steps ≤ n) (fuel : Nat) :
    EndsWithin n (runToHalt fuel s) :=
  .inl ⟨s, runToHalt_of_ended (ended_of_halted hrun) fuel, hrun, hsteps⟩

theorem endsWithin_of_limit (hinv : s.Inv) (hrun : s.run = .running) (hlimit : s.cfg.stepLimit = some n)
    (hsteps : s.steps = n) (fuel : Nat) : EndsWithin n (runToHalt fuel s) :=
  have hended := (ended_of_running hrun hlimit).trans (if_pos hsteps.ge)
  .inr ⟨s, runToHalt_of_ended hended fuel, hrun, hsteps, hinv.running hrun⟩

end

/-- Settles O27, by induction on the fuel: a run that has not ended takes a step (O18), which keeps the
invariant (O15) and either halts or leaves one step fewer to the limit. -/
theorem runHonoursTheStepLimit : Obligations.RunHonoursTheStepLimit := by
  intro s n fuel hinv hlimit hsteps hfuel
  change EndsWithin n (runToHalt fuel s)
  induction fuel generalizing s with
  | zero =>
    cases hrun : s.run with
    | halted => exact endsWithin_of_halted hrun hsteps 0
    | running => exact endsWithin_of_limit hinv hrun hlimit (by omega) 0
  | succ fuel ih =>
    cases hrun : s.run with
    | halted => exact endsWithin_of_halted hrun hsteps _
    | running =>
      by_cases hn : n ≤ s.steps
      · exact endsWithin_of_limit hinv hrun hlimit (by omega) _
      · have hended := (ended_of_running hrun hlimit).trans (if_neg hn)
        obtain ⟨t, ht⟩ := runningMachineAlwaysSteps s hinv hrun
        rw [runToHalt_of_step hended ht]
        rcases step_steps hinv ht with ⟨hhalted, hcount⟩ | hcount
        · exact endsWithin_of_halted hhalted (by omega) fuel
        · exact ih t (everyStepKeepsTheInvariant s t hinv ht) (step_keeps_cfg hinv ht ▸ hlimit) (by omega)
            (by omega)

end Sys2Proof.Machine
end

section
/-! The numeral `PrintInt` stands for (45_system.md R199): its digits are the library's decimal digits, most
significant first, as ASCII bytes. -/

namespace Sys2Proof.Machine

/-! ## The digits -/

theorem decimalDigits_eq_digits {fuel n : Nat} (h0 : n ≠ 0) (h : n < 10 ^ fuel) :
    decimalDigits fuel n = (Nat.digits 10 n).reverse := by
  induction fuel generalizing n with
  | zero => omega
  | succ fuel ih =>
    rw [decimalDigits]
    split
    next hlt => rw [Nat.digits_of_lt 10 n h0 hlt, List.reverse_singleton]
    next hge =>
      rw [Nat.digits_def' (by decide) (Nat.pos_of_ne_zero h0), List.reverse_cons,
        ih (by omega) (by rw [pow_succ] at h; omega)]

/-- Decimal digits of `n`, most significant first and without a leading zero. -/
structure IsNumeral (n : Nat) (ds : List Nat) : Prop where
  nonempty : ds ≠ []
  digit : ∀ d ∈ ds, d < 10
  value : ds.foldl (fun n d => 10 * n + d) 0 = n
  leading : ds.head? = some 0 → ds = [0]

theorem isNumeral_zero : IsNumeral 0 [0] :=
  ⟨by decide, by decide, rfl, fun _ => rfl⟩

theorem isNumeral_digits {n : Nat} (h0 : n ≠ 0) : IsNumeral n (Nat.digits 10 n).reverse where
  nonempty := by simpa [Nat.digits_eq_nil_iff_eq_zero] using h0
  digit d hd := Nat.digits_lt_base (by decide) (List.mem_reverse.1 hd)
  value := by
    rw [List.foldl_reverse]
    conv_rhs => rw [← Nat.ofDigits_digits 10 n, Nat.ofDigits_eq_foldr]
    simp [add_comm]
  leading hhead := by
    have hne : Nat.digits 10 n ≠ [] := by simpa [Nat.digits_eq_nil_iff_eq_zero] using h0
    rw [List.head?_reverse, List.getLast?_eq_some_getLast hne] at hhead
    exact absurd (Option.some.inj hhead) (Nat.getLast_digit_ne_zero 10 h0)

theorem decimalDigits_isNumeral {fuel n : Nat} (h : n < 10 ^ (fuel + 1)) :
    IsNumeral n (decimalDigits (fuel + 1) n) := by
  by_cases h0 : n = 0
  · subst h0
    exact isNumeral_zero
  · rw [decimalDigits_eq_digits h0 h]
    exact isNumeral_digits h0

/-! ## The bytes -/

/-- The ASCII byte of a decimal digit. -/
def digitByte (d : Nat) : BitVec 8 := 0x30 + BitVec.ofNat 8 d

theorem digitByte_toNat {d : Nat} (h : d < 10) : (digitByte d).toNat = 0x30 + d := by
  rw [digitByte, BitVec.toNat_add, BitVec.toNat_ofNat]
  change (48 + d % 256) % 256 = 48 + d
  omega

/-- Ten digits hold every 32-bit value. -/
theorem natAbs_toInt_lt (a : Word) : a.toInt.natAbs < 10 ^ 10 := by
  have hlower := BitVec.le_toInt a
  have hupper := BitVec.toInt_lt (x := a)
  omega

/-- Settles O56: the bytes of the digits carry the digits' own properties over. -/
theorem printIntIsTheSignedNumeral : Obligations.PrintIntIsTheSignedNumeral := by
  intro a
  have hds : IsNumeral a.toInt.natAbs (decimalDigits 10 a.toInt.natAbs) :=
    decimalDigits_isNumeral (natAbs_toInt_lt a)
  refine ⟨_, (decimalDigits 10 a.toInt.natAbs).map digitByte, rfl, rfl, ?_, ?_, ?_, ?_⟩
  · exact mt List.map_eq_nil_iff.1 hds.nonempty
  · intro b hb
    obtain ⟨d, hd, rfl⟩ := List.mem_map.1 hb
    have hdigit := hds.digit d hd
    rw [digitByte_toNat hdigit]
    omega
  · rw [List.foldl_map]
    refine (List.foldl_ext _ _ 0 fun n d hd => ?_).trans hds.value
    rw [digitByte_toNat (hds.digit d hd), Nat.add_sub_cancel_left]
  · intro hhead
    rw [List.head?_map, Option.map_eq_some_iff] at hhead
    obtain ⟨d, hd, hbyte⟩ := hhead
    have hzero : d = 0 := by
      have htoNat := congrArg BitVec.toNat hbyte
      rw [digitByte_toNat (hds.digit d (List.mem_of_head? hd))] at htoNat
      simpa using htoNat
    rw [hds.leading (hzero ▸ hd)]
    rfl

end Sys2Proof.Machine
end
